-- ==== Sys2Proof/Word.lean ====
section
/-! DEFINITION. The word types of the engine: bits, bytes, the 16-bit LFSR word and the 20-bit command word. -/

namespace Sys2Proof

/-- One data bit, 0 or 1: the `bit` of `shiftBit` and the operand of SHB (30_encoding.md R33). -/
abbrev Bit := BitVec 1

/-- The unit one word step consumes, "word size of 8 bits" (00_scope.md R4, glossary "word"). -/
abbrev Byte := BitVec 8

/-- The contents of the LFSR state register `S`, of a table entry and of a response `q` (10_state.md R10). -/
abbrev LfsrWord := BitVec 16

/-- A command, one word of 20 bits (30_encoding.md R30). -/
abbrev CommandWord := BitVec 20

end Sys2Proof
end

