-- ==== Sys2Proof/Config.lean ====
section
/-! DEFINITION. What is fixed when the engine is built: the generator polynomial, the order, the word length
(00_scope.md R4; the rules and the model's definitions write the numbers 16 and 8 where they apply the functions to the
engine, 00_scope.md section 6), and the one parameter the spec leaves open and names per command, `LAT(op)`. The table, which is
computed from these, is `Sys2Proof.Machine.TABLE` (Machine/Lfsr.lean). -/

namespace Sys2Proof.Config

/-- The degree of the polynomial and the width of the LFSR state (00_scope.md R4). -/
abbrev ORDER : Nat := 16

/-- The bits consumed by one word step, and the width of a table index (00_scope.md R4). -/
abbrev WLEN : Nat := 8

/-- The entries of the XOR table, 2^`WLEN` (00_scope.md R4). -/
abbrev TSIZE : Nat := 256

/-- The mask of a "masked low-`order`-bit result", 2^`ORDER` - 1 (00_scope.md R4). -/
def MASK : Nat := 0xFFFF

/-- A generator polynomial of degree `order`, its leading term included: `order` + 1 bits with bit `order` set. Any
other polynomial is refused by this type (93_implementation_defined.md U9). -/
structure Generator (order : Nat) where
  bits : BitVec (order + 1)
  top : bits.getLsbD order = true

/-- The polynomial 0x18005, x^16 + x^15 + x^2 + 1 (00_scope.md R4). -/
def POLY : Generator 16 := ⟨0x18005#17, by decide⟩

/-- This spec's label for the instance (00_scope.md section 1). -/
def isaString : String := "CRC16E-P18005-O16-W8"

/-- One less than the number of cycles a command with operation code `op` takes. OPEN in the spec: no body, so
nothing can be proved of its value, and no rule and no definition of the model reads it (DESIGN CHOICE, log entry 12). -/
opaque latMinusOne : BitVec 4 → Nat

/-- `LAT(op)`, an open parameter of the implementation, "at least 1 and finite" (70_reset_and_hazards.md R95). -/
def LAT (op : BitVec 4) : Nat := latMinusOne op + 1

end Sys2Proof.Config
end

