-- ==== Sys2Proof/Machine/Lfsr.lean ====
section
/-! DEFINITION. The four functions of the source document with their own arguments (00_scope.md R5) and the constant
table of the engine: `shiftBit`, `shiftWord` (40_bit_serial_shift.md), `buildTable`, `TABLE` and `updateTableDriven`
(41_table_driven_update.md). Inputs that are not well-formed are refused by the types: a `state` has `order` bits, a
`bit` one, a `word` `wordLength` (93_implementation_defined.md U1, U2, U3, U9; DEDUCED, log entry 6). -/

namespace Sys2Proof.Machine

open Config

/-- Bit `k` of `word`, `(word >> k) & 1` (40_bit_serial_shift.md R42). -/
def bitAt {m : Nat} (word : BitVec m) (k : Nat) : Bit := word.extractLsb' k 1

/-- One bit into the LFSR (40_bit_serial_shift.md R40): `t = (state << 1) | bit`, `order` + 1 bits wide; if bit
`order` of `t` is set, XOR with the whole polynomial; the low `order` bits. -/
def shiftBit (order : Nat) (polynomial : Generator order) (state : BitVec order) (bit : Bit) : BitVec order :=
  let t : BitVec (order + 1) := (state.setWidth (order + 1) <<< 1) ||| bit.setWidth (order + 1)
  let t := if t.getLsbD order then t ^^^ polynomial.bits else t
  t.setWidth order

/-- The loop of `shiftWord`, `for k = n-1 downto 0`, over the low `n` bits of `word` (40_bit_serial_shift.md R42). -/
def shiftLow (order : Nat) (polynomial : Generator order) {m : Nat} (word : BitVec m) :
    Nat → BitVec order → BitVec order
  | 0, state => state
  | k + 1, state => shiftLow order polynomial word k (shiftBit order polynomial state (bitAt word k))

/-- The `wordLength` bits of `word`, most significant first (40_bit_serial_shift.md R42). The document writes
`wordLength` last; here it stands before `word`, whose width it is (DESIGN CHOICE, log entry 8). -/
def shiftWord (order : Nat) (polynomial : Generator order) (state : BitVec order)
    (wordLength : Nat) (word : BitVec wordLength) : BitVec order :=
  shiftLow order polynomial word wordLength state

/-- The word lengths `buildTable` and `updateTableDriven` have a meaning for (93_implementation_defined.md U1). -/
abbrev WordBound (order wordLength : Nat) : Prop := 1 ≤ wordLength ∧ wordLength ≤ order

/-- An XOR table, one `order`-bit entry for each index of `wordLength` bits: every index is valid and none is out of
range (20_memory.md R22; DESIGN CHOICE, log entry 7). -/
abbrev Table (order wordLength : Nat) := BitVec wordLength → BitVec order

/-- The table (41_table_driven_update.md R50): the index `w`, placed in the top `wordLength` bits of the state, is
shifted out by `wordLength` ZERO bits (90_conflicts.md C1). -/
def buildTable (order : Nat) (polynomial : Generator order) (wordLength : Nat)
    (_bound : WordBound order wordLength) : Table order wordLength :=
  fun w =>
    let initialState : BitVec order := w.setWidth order <<< (order - wordLength)
    shiftWord order polynomial initialState wordLength 0

/-- One word through the table (41_table_driven_update.md R53). The index is the top `wordLength` bits of the state
BEFORE the shift, not the input word (90_conflicts.md C2). -/
def updateTableDriven (order wordLength : Nat) (_bound : WordBound order wordLength)
    (table : Table order wordLength) (state : BitVec order) (word : BitVec wordLength) : BitVec order :=
  let index : BitVec wordLength := (state >>> (order - wordLength)).setWidth wordLength
  let t : BitVec (order + wordLength) :=
    (state.setWidth (order + wordLength) <<< wordLength) ||| word.setWidth (order + wordLength)
  let t := t ^^^ (table index).setWidth (order + wordLength)
  t.setWidth order

/-- The engine's word length is within its order. -/
theorem engine_bound : WordBound 16 8 := by decide

/-- The engine's read-only memory, `buildTable(16, 0x18005, 8)` (10_state.md R16, 41_table_driven_update.md R51).
`TABLE i` is the one memory read primitive `TABLE[i]`: one whole entry, no side effect (20_memory.md R20, R25). -/
def TABLE : Table 16 8 := buildTable 16 POLY 8 engine_bound

/-- The entries of a table in the order of their indices, the document's "ordered sequence" (10_state.md R16). -/
def tableEntries {order wordLength : Nat} (table : Table order wordLength) : List (BitVec order) :=
  (List.range (2 ^ wordLength)).map fun i => table (BitVec.ofNat wordLength i)

end Sys2Proof.Machine
end

