-- ==== Sys2Proof/Syntax.lean ====
section
/-! DEFINITION. The commands of the engine, one constructor for each row of spec/opcode_table.json; why a command word
is illegal; and the assembler's source lines (30_encoding.md R37, R38). -/

namespace Sys2Proof

/-- The six commands (30_encoding.md R31). Each operand has exactly the width of its field, so that an operand that is
not well-formed cannot be written (30_encoding.md R33, 93_implementation_defined.md U2). -/
inductive Instr where
  /-- NOP: no operation; its response reads `S` (42_state_access.md R60). -/
  | nop
  /-- LD `imm`: load the state (42_state_access.md R61). -/
  | ld (imm : LfsrWord)
  /-- SHB `b`: shift one bit (40_bit_serial_shift.md R44). -/
  | shb (b : Bit)
  /-- SHW `w`: shift one byte, bit-serially (40_bit_serial_shift.md R45). -/
  | shw (w : Byte)
  /-- UPD `w`: update by one byte through the table (41_table_driven_update.md R56). -/
  | upd (w : Byte)
  /-- TBL `i`: read one table entry (41_table_driven_update.md R55). -/
  | tbl (i : Byte)
  deriving DecidableEq, Repr

/-- The mnemonic of a command as spec/opcode_table.json spells it. -/
def Instr.mnemonic : Instr → String
  | .nop => "NOP"
  | .ld _ => "LD"
  | .shb _ => "SHB"
  | .shw _ => "SHW"
  | .upd _ => "UPD"
  | .tbl _ => "TBL"

/-- Why a command word is illegal (30_encoding.md R34, R35). The machine keeps neither reason: both are the one
exception `IllegalCommand` with no cause code (60_exceptions.md R81, R85; DESIGN CHOICE, log entry 9). -/
inductive IllegalWord where
  /-- `op` is one of the ten values 0x6 to 0xF that name no command. -/
  | unusedOpcode (op : BitVec 4)
  /-- `op` names a command and `arg` has a bit set that the command does not use. -/
  | reservedBitSet (op : BitVec 4) (arg : BitVec 16)
  deriving DecidableEq, Repr

/-- One line of assembler source (30_encoding.md R37, R38): the six commands with their operand as a number, the
directive `.WORD`, and the three pseudo-instructions. -/
inductive AsmLine where
  | nop
  | ld (n : Nat)
  | shb (n : Nat)
  | shw (n : Nat)
  | upd (n : Nat)
  | tbl (n : Nat)
  /-- `.WORD 0xNNNNN`: the given value as a command word as it stands, legal or not. -/
  | word (n : Nat)
  /-- `CLR`, another name of `LD 0x0000`. -/
  | clr
  /-- `RD`, another name of `NOP`. -/
  | rd
  /-- `SHZ`, another name of `SHW 0x00`. -/
  | shz
  deriving DecidableEq, Repr

/-- The source line that writes a command. -/
def Instr.toAsm : Instr → AsmLine
  | .nop => .nop
  | .ld imm => .ld imm.toNat
  | .shb b => .shb b.toNat
  | .shw w => .shw w.toNat
  | .upd w => .upd w.toNat
  | .tbl i => .tbl i.toNat

end Sys2Proof
end

