-- ==== Sys2Proof/Machine/State.lean ====
section
/-! DEFINITION. The state of a run as plain data: the engine's two registers (10_state.md R18), the host's program and
record (70_reset_and_hazards.md R97), and the model's mark of the power-on state (R91); the reasons a step stops. -/

namespace Sys2Proof.Machine

/-- One letter of a run: "words over the alphabet {a command word, Reset}" (70_reset_and_hazards.md R93). -/
inductive Letter where
  | command (cmd : CommandWord)
  | reset
  deriving DecidableEq, Repr

/-- What a step yields to the host: `q[15:0]` and `err` (30_encoding.md R32). -/
structure Response where
  q : LfsrWord
  err : Bool
  deriving DecidableEq, Repr

/-- Whether a Reset has been applied since power came on (70_reset_and_hazards.md R91, R92). The model's own
(DESIGN CHOICE, log entry 3): after a Reset it never changes again, and it is no register of the engine. -/
inductive Phase where
  | unreset
  | ready
  deriving DecidableEq, Repr

/-- The engine is `S` and `ERR` and nothing else (10_state.md R17, R18). `pending` and `responses` are the host's
(DESIGN CHOICE, log entries 1 and 2): no command reads either. -/
structure State where
  /-- The LFSR state register (10_state.md R10). -/
  S : LfsrWord
  /-- The sticky fault flag; while it is set the engine is in fail-stop (10_state.md R12). -/
  ERR : Bool
  /-- The model's own mark of the power-on state (DESIGN CHOICE, log entry 3). -/
  phase : Phase
  /-- The letters the host has yet to give, the next one first (10_state.md R14). -/
  pending : List Letter
  /-- The responses the host has read, oldest first (30_encoding.md R32). -/
  responses : List Response
  deriving DecidableEq, Repr

/-- Why the machine stops with a fault. -/
inductive Fault where
  /-- A command given before the first Reset after power-on: "state read before Reset" (70_reset_and_hazards.md R91,
  93_implementation_defined.md U4). Raised by every command while `phase` is `unreset`. Safe: the spec gives the
  power-on state no value and no claim may pass through it. -/
  | stateReadBeforeReset
  deriving DecidableEq, Repr

/-- Why there is no step. -/
inductive Refusal where
  /-- An instruction without a meaning yet. Raised by a refused arm of `exec` alone; this model has none. Safe. -/
  | notModelled (mnemonic : String)
  /-- The host's list is exhausted, so the run is over and there is no command to execute (DESIGN CHOICE, log entry 5; 70_reset_and_hazards.md R97,
  93_implementation_defined.md U10). Raised by `step` when `pending` is empty. Safe: no instruction is refused. -/
  | endOfRun
  deriving DecidableEq, Repr

/-- The outcome of a command or of a step. -/
abbrev Result := Host.Outcome State Fault Refusal

/-- The state after Reset, `S` = 0x0000 and `ERR` = 0 (70_reset_and_hazards.md R90), with no program given yet and no
response read (DESIGN CHOICE, log entries 1 and 2). -/
def State.reset : State where
  S := 0x0000
  ERR := false
  phase := .ready
  pending := []
  responses := []

end Sys2Proof.Machine
end

