-- ==== Sys2Proof/Machine/Flags.lean ====
section
/-! DEFINITION. The one flag, `ERR` (10_state.md R12). There are no condition codes: no command computes a flag. -/

namespace Sys2Proof.Machine

/-- The engine is in fail-stop while `ERR` = 1 (60_exceptions.md R82). -/
def State.inFailStop (s : State) : Bool := s.ERR

/-- `ERR <- 1` (60_exceptions.md R81). -/
def State.setErr (s : State) : State := { s with ERR := true }

/-- `ERR <- 0`, which only Reset does (70_reset_and_hazards.md R90). -/
def State.clearErr (s : State) : State := { s with ERR := false }

end Sys2Proof.Machine
end

