-- ==== Sys2Proof/Machine/Ops.lean ====
section
/-! DEFINITION. The named operations: writing `S`, responding, Reset, taking `IllegalCommand` (60_exceptions.md R81),
fail-stop (R82), and the frame every command runs in. There is no return from an exception but Reset (R84). -/

namespace Sys2Proof.Machine

/-- `S <- v` (00_scope.md section 6). -/
def State.writeS (s : State) (v : LfsrWord) : State := { s with S := v }

/-- The response of this step: `q <- v` and `err = ERR`, with `ERR` as the step leaves it (30_encoding.md R32). -/
def State.respond (s : State) (v : LfsrWord) : State :=
  { s with responses := s.responses ++ [⟨v, s.ERR⟩] }

/-- `S <- v; q <- S`, how LD, SHB, SHW and UPD end: `q` is the new `S` (30_encoding.md R32). -/
def State.writeAndRespond (s : State) (v : LfsrWord) : State := (s.writeS v).respond v

/-- The host has the letters `rest` left to give (10_state.md R14). -/
def State.withPending (s : State) (rest : List Letter) : State := { s with pending := rest }

/-- Reset, from any state, the power-on state among them; it yields no response (70_reset_and_hazards.md R90). -/
def State.applyReset (s : State) : State :=
  { (s.writeS 0x0000).clearErr with phase := .ready }

/-- The state when power is applied: `S` and `ERR` have no specified value and no step reads what stands there
(70_reset_and_hazards.md R91, 60_exceptions.md R89). -/
def State.powerOn (s : State) : State := { s with phase := .unreset }

/-- `raise IllegalCommand(cmd)`: `ERR <- 1`, `S` unchanged, `q <- S`, `err` = 1 (60_exceptions.md R81), taken as a
next state (DEDUCED, log entry 4). -/
def State.raiseIllegalCommand (s : State) : State := s.setErr.respond s.S

/-- A step in fail-stop changes nothing and responds `q` = `S` with `err` = `ERR` = 1 (60_exceptions.md R82). -/
def State.failStop (s : State) : State := s.respond s.S

/-- What every command word meets first: before the first Reset it faults, since it would read `ERR`
(70_reset_and_hazards.md R91); in fail-stop the step only responds (60_exceptions.md R82); else `act` is done. -/
def whenRunning (s : State) (act : State → Result) : Result :=
  match s.phase with
  | .unreset => .fault .stateReadBeforeReset
  | .ready => if s.inFailStop then .next s.failStop else act s

end Sys2Proof.Machine
end

