-- ==== Sys2Proof/Machine/BitSerialShift.lean ====
section
/-! DEFINITION. The bit-serial family: SHB and SHW (40_bit_serial_shift.md). -/

namespace Sys2Proof.Machine

open Config

/-- SHB `b` (40_bit_serial_shift.md R44). -/
def execShb (b : Bit) (s : State) : Result :=
  whenRunning s fun s => .next (s.writeAndRespond (shiftBit 16 POLY s.S b))

/-- SHW `w`, bit 7 of `w` first (40_bit_serial_shift.md R45). -/
def execShw (w : Byte) (s : State) : Result :=
  whenRunning s fun s => .next (s.writeAndRespond (shiftWord 16 POLY s.S 8 w))

end Sys2Proof.Machine
end

