-- ==== Sys2Proof/Machine/StateAccess.lean ====
section
/-! DEFINITION. The state access family: NOP and LD (42_state_access.md). The pseudo-instructions CLR, RD and SHZ are
other names of words of LD, NOP and SHW (R62). -/

namespace Sys2Proof.Machine

/-- NOP: no change of state, the response reads `S` (42_state_access.md R60). -/
def execNop (s : State) : Result :=
  whenRunning s fun s => .next (s.respond s.S)

/-- LD `imm`: `S` takes the value `imm` whatever it held (42_state_access.md R61). -/
def execLd (imm : LfsrWord) (s : State) : Result :=
  whenRunning s fun s => .next (s.writeAndRespond imm)

end Sys2Proof.Machine
end

