-- ==== Sys2Proof/Machine/TableDriven.lean ====
section
/-! DEFINITION. The table-driven family: TBL and UPD (41_table_driven_update.md). -/

namespace Sys2Proof.Machine

open Config

/-- TBL `i`: the response is the table entry, `S` is not changed (41_table_driven_update.md R55). -/
def execTbl (i : Byte) (s : State) : Result :=
  whenRunning s fun s => .next (s.respond (TABLE i))

/-- UPD `w` (41_table_driven_update.md R56). -/
def execUpd (w : Byte) (s : State) : Result :=
  whenRunning s fun s => .next (s.writeAndRespond (updateTableDriven 16 8 engine_bound TABLE s.S w))

end Sys2Proof.Machine
end

