-- ==== Sys2Proof/Machine/Dispatch.lean ====
section
/-! DEFINITION. The dispatch of a decoded command to its meaning, one arm for each row of the opcode table. -/

namespace Sys2Proof.Machine

def exec (i : Instr) (s : State) : Host.Outcome State Fault Refusal :=
  match i with
  | .nop => Sys2Proof.Machine.execNop s
  | .ld imm => Sys2Proof.Machine.execLd imm s
  | .shb b => Sys2Proof.Machine.execShb b s
  | .shw w => Sys2Proof.Machine.execShw w s
  | .upd w => Sys2Proof.Machine.execUpd w s
  | .tbl index => Sys2Proof.Machine.execTbl index s

end Sys2Proof.Machine
end

