-- ==== Sys2Proof/Machine/Operands.lean ====
section
/-! DEFINITION. The fields of a command word and every operand form (30_encoding.md R30, R33), and the reserved bits of
each command (R34). -/

namespace Sys2Proof.Machine

/-- `op = cmd[19:16]` (30_encoding.md R30). -/
def opField (cmd : CommandWord) : BitVec 4 := cmd.extractLsb' 16 4

/-- `arg = cmd[15:0]` (30_encoding.md R30). -/
def argField (cmd : CommandWord) : BitVec 16 := cmd.extractLsb' 0 16

/-- `imm` of LD, all 16 bits of `arg` (30_encoding.md R33). -/
def immOperand (arg : BitVec 16) : LfsrWord := arg

/-- `b` of SHB, `arg[0]` (30_encoding.md R33). -/
def bitOperand (arg : BitVec 16) : Bit := arg.extractLsb' 0 1

/-- `w` of SHW and UPD and `i` of TBL, `arg[7:0]` (30_encoding.md R33). -/
def byteOperand (arg : BitVec 16) : Byte := arg.extractLsb' 0 8

/-- The bits NOP does not use are all of `arg` (30_encoding.md R34). -/
def reservedOfNop (arg : BitVec 16) : BitVec 16 := arg

/-- The bits SHB does not use are `arg[15:1]` (30_encoding.md R34). -/
def reservedOfBit (arg : BitVec 16) : BitVec 15 := arg.extractLsb' 1 15

/-- The bits SHW, UPD and TBL do not use are `arg[15:8]` (30_encoding.md R34). -/
def reservedOfByte (arg : BitVec 16) : BitVec 8 := arg.extractLsb' 8 8

end Sys2Proof.Machine
end

