-- ==== Sys2Proof/WellFormed.lean ====
section
/-! DEFINITION. Which source lines an assembler accepts (30_encoding.md R37): the operand must fit the command's field.
A command of type `Instr` is always well-formed, by the widths of its operands (Laws/PerInstr.lean proves it of each
constructor); the checks that can refuse something are those of a source line. -/

namespace Sys2Proof

/-- "The operand must fit the command's field (LD 0 to 0xFFFF; SHW, UPD, TBL 0 to 0xFF; SHB 0 or 1)", and the value
of `.WORD` must be 0 to 0xFFFFF (30_encoding.md R37). -/
def AsmLine.wellFormed : AsmLine → Bool
  | .nop => true
  | .ld n => decide (n ≤ 0xFFFF)
  | .shb n => decide (n ≤ 1)
  | .shw n => decide (n ≤ 0xFF)
  | .upd n => decide (n ≤ 0xFF)
  | .tbl n => decide (n ≤ 0xFF)
  | .word n => decide (n ≤ 0xFFFFF)
  | .clr => true
  | .rd => true
  | .shz => true

/-- A command is well-formed when the line that writes it is. -/
def Instr.wellFormed (i : Instr) : Bool :=
  i.toAsm.wellFormed

end Sys2Proof
end

