-- ==== Sys2Proof/Decode.lean ====
section
/-! DEFINITION. The decoder, total on every 20-bit word and rejecting by name (30_encoding.md R31, R34, R35); the
encoder; the match and mask table of R35; the assembler's words (R37, R38); and the host's numbering of a word. -/

namespace Sys2Proof

open Machine

/-- The command a word names, or why it is illegal (30_encoding.md R31, R34, R35). -/
def decode (cmd : CommandWord) : Except IllegalWord Instr :=
  match opField cmd with
  | 0x0#4 =>
    if reservedOfNop (argField cmd) = 0 then .ok .nop
    else .error (.reservedBitSet 0x0 (argField cmd))
  | 0x1#4 => .ok (.ld (immOperand (argField cmd)))
  | 0x2#4 =>
    if reservedOfBit (argField cmd) = 0 then .ok (.shb (bitOperand (argField cmd)))
    else .error (.reservedBitSet 0x2 (argField cmd))
  | 0x3#4 =>
    if reservedOfByte (argField cmd) = 0 then .ok (.shw (byteOperand (argField cmd)))
    else .error (.reservedBitSet 0x3 (argField cmd))
  | 0x4#4 =>
    if reservedOfByte (argField cmd) = 0 then .ok (.upd (byteOperand (argField cmd)))
    else .error (.reservedBitSet 0x4 (argField cmd))
  | 0x5#4 =>
    if reservedOfByte (argField cmd) = 0 then .ok (.tbl (byteOperand (argField cmd)))
    else .error (.reservedBitSet 0x5 (argField cmd))
  | op => .error (.unusedOpcode op)

/-- A word is legal when it names a command (30_encoding.md R35). -/
def legal (cmd : CommandWord) : Bool :=
  match decode cmd with
  | .ok _ => true
  | .error _ => false

/-- The word of a command: its operation code over its operand, unused bits zero (30_encoding.md R30, R31, R34). -/
def encode : Instr → CommandWord
  | .nop => 0x0#4 ++ 0x0000#16
  | .ld imm => 0x1#4 ++ imm
  | .shb b => 0x2#4 ++ b.setWidth 16
  | .shw w => 0x3#4 ++ w.setWidth 16
  | .upd w => 0x4#4 ++ w.setWidth 16
  | .tbl i => 0x5#4 ++ i.setWidth 16

/-- One row of the match and mask table of 30_encoding.md R35. -/
structure OpcodeRow where
  mnemonic : String
  matchBits : CommandWord
  mask : CommandWord
  deriving DecidableEq, Repr

/-- A word matches a row when `(cmd & mask) == match` (30_encoding.md R35). -/
def OpcodeRow.accepts (r : OpcodeRow) (cmd : CommandWord) : Bool :=
  cmd &&& r.mask == r.matchBits

/-- The table of 30_encoding.md R35, which is spec/opcode_table.json. -/
def opcodeTable : List OpcodeRow :=
  [⟨"NOP", 0x00000, 0xFFFFF⟩, ⟨"LD", 0x10000, 0xF0000⟩, ⟨"SHB", 0x20000, 0xFFFFE⟩,
   ⟨"SHW", 0x30000, 0xFFF00⟩, ⟨"UPD", 0x40000, 0xFFF00⟩, ⟨"TBL", 0x50000, 0xFFF00⟩]

/-- The table's row of a command. -/
def Instr.row : Instr → OpcodeRow
  | .nop => ⟨"NOP", 0x00000, 0xFFFFF⟩
  | .ld _ => ⟨"LD", 0x10000, 0xF0000⟩
  | .shb _ => ⟨"SHB", 0x20000, 0xFFFFE⟩
  | .shw _ => ⟨"SHW", 0x30000, 0xFFF00⟩
  | .upd _ => ⟨"UPD", 0x40000, 0xFFF00⟩
  | .tbl _ => ⟨"TBL", 0x50000, 0xFFF00⟩

/-- The word a source line stands for when its operand is taken as it is (30_encoding.md R37, R38); `assemble` asks
first whether the operand fits. -/
def AsmLine.rawWord : AsmLine → CommandWord
  | .nop => encode .nop
  | .ld n => encode (.ld (BitVec.ofNat 16 n))
  | .shb n => encode (.shb (BitVec.ofNat 1 n))
  | .shw n => encode (.shw (BitVec.ofNat 8 n))
  | .upd n => encode (.upd (BitVec.ofNat 8 n))
  | .tbl n => encode (.tbl (BitVec.ofNat 8 n))
  | .word n => BitVec.ofNat 20 n
  | .clr => encode (.ld 0x0000)
  | .rd => encode .nop
  | .shz => encode (.shw 0x00)

/-- The word of a source line; "an assembler refuses a larger one and never truncates it" (30_encoding.md R37). -/
def assemble (l : AsmLine) : Option CommandWord :=
  if l.wellFormed then some l.rawWord else none

/-- The 20-bit word the host's numbering of a table row's bits gives, if it is one: bit 0 the least significant, the
bits at and above `nbits` zero. A number with a bit above bit 19 is no command word (DESIGN CHOICE, log entry 10). -/
def tableWord (nbits w : Nat) : Option CommandWord :=
  if w % 2 ^ nbits < 2 ^ 20 then some (BitVec.ofNat 20 (w % 2 ^ nbits)) else none

/-- The command the decoder reads from a word numbered as spec/opcode_table.json numbers it. -/
def decodeTableWord (nbits w : Nat) : Option Instr :=
  match tableWord nbits w with
  | none => none
  | some cmd =>
    match decode cmd with
    | .ok i => some i
    | .error _ => none

end Sys2Proof
end

