-- ==== Sys2Proof/Machine/Sequencing.lean ====
section
/-! DEFINITION. How a step comes by its letter and in which order it tests (60_exceptions.md R82, R85). The engine has
no program counter and fetches nothing (10_state.md R14): the next letter is the host's. `Step.lean` only calls these. -/

namespace Sys2Proof.Machine

/-- One command word given to the engine, with `run` what a legal command does: first `ERR` (in fail-stop the word is
not decoded), then the legality of the whole word, then execution (60_exceptions.md R82, R85). Before the first Reset
any word reads `ERR` and so faults (70_reset_and_hazards.md R91). -/
def giveCommand (run : Instr → State → Result) (cmd : CommandWord) (s : State) : Result :=
  whenRunning s fun s =>
    match decode cmd with
    | .error _ => .next s.raiseIllegalCommand
    | .ok i => run i s

/-- One letter of the run, applied whole (70_reset_and_hazards.md R93). -/
def giveLetter (run : Instr → State → Result) (l : Letter) (s : State) : Result :=
  match l with
  | .reset => .next s.applyReset
  | .command cmd => giveCommand run cmd s

/-- The next letter of the host's list is given and leaves the list, "whatever the command and whatever the response"
(10_state.md R14); with none left the run is over (70_reset_and_hazards.md R97). -/
def giveNext (run : Instr → State → Result) (s : State) : Result :=
  match s.pending with
  | [] => .refused .endOfRun
  | l :: rest => giveLetter run l (s.withPending rest)

/-- The host has the word numbered `w` to give next, before what it had to give (DESIGN CHOICE, log entries 1 and 10); a number that
is no 20-bit word cannot be given, and nothing is placed. -/
def placeWord (s : State) (nbits w : Nat) : State :=
  match tableWord nbits w with
  | none => s
  | some cmd => s.withPending (.command cmd :: s.pending)

end Sys2Proof.Machine
end

