-- ==== Sys2Proof/Machine/Step.lean ====
section
/-! DEFINITION. One step of a run, and the host's way to place a word as the next command. -/

namespace Sys2Proof.Machine

/-- One step: the next letter of the host's list, given to the engine (60_exceptions.md R82, 70_reset_and_hazards.md
R97). -/
def step (s : State) : Host.Outcome State Fault Refusal :=
  giveNext exec s

/-- `s` with the word numbered `w` as the next command. -/
def State.withFetchWord (s : State) (nbits w : Nat) : State :=
  placeWord s nbits w

end Sys2Proof.Machine
end

