-- ==== Sys2Proof/Machine/Assembler.lean ====
section
/-! DEFINITION. The textual form of a command (30_encoding.md R37, R38), read from one line of characters: mnemonic in
capitals, one space, the operand in hexadecimal with `0x` or in decimal, and a comment from `;` on. What R37 leaves
open of the text is in log entry 11 (DESIGN CHOICE). -/

namespace Sys2Proof.Machine

/-- The value of a decimal digit. -/
def decimalDigit (c : Char) : Option Nat :=
  if 48 ≤ c.toNat ∧ c.toNat ≤ 57 then some (c.toNat - 48) else none

/-- The value of a hexadecimal digit, in capitals or not. -/
def hexDigit (c : Char) : Option Nat :=
  if 65 ≤ c.toNat ∧ c.toNat ≤ 70 then some (c.toNat - 55)
  else if 97 ≤ c.toNat ∧ c.toNat ≤ 102 then some (c.toNat - 87)
  else decimalDigit c

/-- The number a row of digits writes in `base`, `acc` being the value of the digits before it. -/
def digitsValue (digit : Char → Option Nat) (base : Nat) : Nat → List Char → Option Nat
  | acc, [] => some acc
  | acc, c :: cs =>
    match digit c with
    | none => none
    | some d => digitsValue digit base (acc * base + d) cs

/-- A hexadecimal number with `0x`. -/
def hexNumber : List Char → Option Nat
  | '0' :: 'x' :: c :: cs => digitsValue hexDigit 16 0 (c :: cs)
  | _ => none

/-- An operand: "a hexadecimal number with `0x` or … a decimal number" (30_encoding.md R37). -/
def numberOperand : List Char → Option Nat
  | '0' :: 'x' :: cs => hexNumber ('0' :: 'x' :: cs)
  | c :: cs => digitsValue decimalDigit 10 0 (c :: cs)
  | [] => none

/-- A line without its comment, "everything from `;` to the end of the line" (30_encoding.md R37). -/
def withoutComment (line : List Char) : List Char := line.takeWhile (· != ';')

/-- A line without the blanks at its end. -/
def withoutTrailingBlanks (line : List Char) : List Char := (line.reverse.dropWhile (· == ' ')).reverse

/-- The line a mnemonic without an operand writes. -/
def plainLine : List Char → Option AsmLine
  | ['N', 'O', 'P'] => some .nop
  | ['C', 'L', 'R'] => some .clr
  | ['R', 'D'] => some .rd
  | ['S', 'H', 'Z'] => some .shz
  | _ => none

/-- The line a mnemonic with an operand writes. -/
def operandLine (operand : List Char) : List Char → Option AsmLine
  | ['L', 'D'] => (numberOperand operand).map .ld
  | ['S', 'H', 'B'] => (numberOperand operand).map .shb
  | ['S', 'H', 'W'] => (numberOperand operand).map .shw
  | ['U', 'P', 'D'] => (numberOperand operand).map .upd
  | ['T', 'B', 'L'] => (numberOperand operand).map .tbl
  | ['.', 'W', 'O', 'R', 'D'] => (hexNumber operand).map .word
  | _ => none

/-- The command a line of text writes, if it writes one: "one command per line; the mnemonic in capitals; one space;
the operand, if the command has one" (30_encoding.md R37). -/
def parseLine (line : List Char) : Option AsmLine :=
  let code := withoutTrailingBlanks (withoutComment line)
  match code.dropWhile (· != ' ') with
  | [] => plainLine code
  | _ :: operand => operandLine operand (code.takeWhile (· != ' '))

/-- The command word of a line of text. -/
def assembleText (line : List Char) : Option CommandWord := (parseLine line).bind assemble

end Sys2Proof.Machine
end

