-- ==== Sys2Proof/Safety.lean ====
section
/-! DEFINITION. The terms claims are made in: faulted states and the record a faulted state leaves
(60_exceptions.md R83), message bytes given through either datapath (43_equivalence_laws.md R68, R74), and the
polynomial reading of a bit vector (00_scope.md section 6). -/

namespace Sys2Proof

open Machine Config

/-- "A state with `ERR` = 1 is a faulted state. It is never the good end of a run" (60_exceptions.md R83). -/
abbrev Faulted (s : State) : Prop := s.ERR = true

/-- The engine has been reset and is not in fail-stop: the states in which a command has its own effect
(70_reset_and_hazards.md R92, 60_exceptions.md R82). -/
abbrev Running (s : State) : Prop := s.phase = .ready ∧ s.ERR = false

/-- A faulted engine that has been reset last showed the host its fault: the last response carries `err` = 1 and the
value `S` still holds (60_exceptions.md R81, R82). -/
abbrev FaultIsOnRecord (s : State) : Prop :=
  s.phase = .ready ∧ (s.ERR = true → s.responses.getLast? = some ⟨s.S, true⟩)

/-- The two datapaths a byte can be given through (00_scope.md R1). -/
inductive Datapath where
  | bitSerial
  | tableDriven
  deriving DecidableEq, Repr

/-- The command that gives a byte through a datapath: SHW or UPD. -/
def byteCommand : Datapath → Byte → Instr
  | .bitSerial, w => .shw w
  | .tableDriven, w => .upd w

/-- The letters that give commands. -/
def give (is : List Instr) : List Letter := is.map fun i => .command (encode i)

/-- The letters that give a message, each byte through a datapath of the host's choosing (43_equivalence_laws.md
R74). -/
def giveBytes (m : List (Datapath × Byte)) : List Letter := give (m.map fun x => byteCommand x.1 x.2)

/-- The eight commands `SHB w[7]`, ..., `SHB w[0]` (43_equivalence_laws.md R74). -/
def giveBits (w : Byte) : List Letter :=
  give [.shb (w.extractLsb' 7 1), .shb (w.extractLsb' 6 1), .shb (w.extractLsb' 5 1), .shb (w.extractLsb' 4 1),
    .shb (w.extractLsb' 3 1), .shb (w.extractLsb' 2 1), .shb (w.extractLsb' 1 1), .shb (w.extractLsb' 0 1)]

/-- A letter that is a command yields one response, Reset none (70_reset_and_hazards.md R96). -/
def Machine.Letter.isCommand : Letter → Bool
  | .command _ => true
  | .reset => false

/-- A letter that is Reset or a legal command word. -/
def Machine.Letter.isLegal : Letter → Bool
  | .command cmd => legal cmd
  | .reset => true

/-- A running engine with only legal words and Resets to come: "a program made of legal words never sets `ERR`"
(60_exceptions.md R83), as it stands before each of its steps. -/
abbrev OnlyLegalAhead (s : State) : Prop := Running s ∧ s.pending.all Letter.isLegal = true

/-- The polynomial over GF(2) "whose coefficient of `x^i` is `v[i]`" (00_scope.md section 6). -/
noncomputable def toPoly {n : Nat} (v : BitVec n) : Polynomial (ZMod 2) :=
  ∑ i ∈ Finset.range n, if v.getLsbD i then Polynomial.X ^ i else 0

/-- `P`, x^16 + x^15 + x^2 + 1 (43_equivalence_laws.md). -/
noncomputable def P : Polynomial (ZMod 2) := toPoly POLY.bits

/-- `M`, "the message read as one polynomial", its first byte the most significant (43_equivalence_laws.md R68,
R69). -/
noncomputable def messagePoly : List Byte → Polynomial (ZMod 2)
  | [] => 0
  | b :: bs => toPoly b * Polynomial.X ^ (8 * bs.length) + messagePoly bs

end Sys2Proof
end

