-- ==== Sys2Proof/Certificates/Slice0/Obligations.lean ====
section
/-! DEFINITION. The statements for the provers, each a `def Obligations.<Name> : Prop`: encoding, the four functions,
the commands, the step and its exceptions, runs, and the invariant. -/

open Sys2Proof Sys2Proof.Machine Sys2Proof.Config

/-! ### Encoding (30_encoding.md) -/

/-- Decoding the word of a command gives the command back, every operand at every value (R30, R31, R33). -/
def Obligations.DecodeOfEncode : Prop :=
  ∀ i : Instr, i.wellFormed = true ∧ decode (encode i) = .ok i

/-- R35: a word is legal exactly when it matches a row of the table, then no other row matches and it names one
command with its operand, that of the row, whose word it is: no bit of it is ignored; there are 66307 legal words; an
illegal word raises `IllegalCommand`. -/
def Obligations.LegalExactlyWhenARowMatches : Prop :=
  (∀ cmd : CommandWord, legal cmd = true ↔ ∃ r ∈ opcodeTable, r.accepts cmd = true) ∧
  (∀ cmd : CommandWord, ∀ r₁ ∈ opcodeTable, ∀ r₂ ∈ opcodeTable,
    r₁.accepts cmd = true → r₂.accepts cmd = true → r₁ = r₂) ∧
  (∀ (cmd : CommandWord) (i : Instr), decode cmd = .ok i →
    i.row ∈ opcodeTable ∧ i.row.accepts cmd = true ∧ encode i = cmd) ∧
  ((Finset.range (2 ^ 20)).filter fun n => legal (BitVec.ofNat 20 n) = true).card = 66307 ∧
  (∀ (cmd : CommandWord) (rest : List Letter) (s : State), legal cmd = false → Running s →
    s.pending = .command cmd :: rest → step s = .next (s.withPending rest).raiseIllegalCommand)

/-- Words written out from 30_encoding.md R35 and R37 (95_test_vectors.md V9) decode to the commands they stand for, and
V9's illegal words are refused. -/
def Obligations.SpecWordsDecode : Prop :=
  decode 0x00000 = .ok .nop ∧ decode 0x11234 = .ok (.ld 0x1234) ∧ decode 0x18005 = .ok (.ld 0x8005) ∧
  decode 0x20000 = .ok (.shb 0) ∧ decode 0x20001 = .ok (.shb 1) ∧ decode 0x30056 = .ok (.shw 0x56) ∧
  decode 0x400A5 = .ok (.upd 0xA5) ∧ decode 0x500FF = .ok (.tbl 0xFF) ∧
  (∀ cmd ∈ [0x00001#20, 0x08000, 0x20002, 0x2FFFF, 0x30100, 0x3FF00, 0x40100, 0x50100, 0x60000, 0x7ABCD, 0xF0000,
    0xFFFFF], legal cmd = false)

/-- R37: "The operand must fit the command's field ...; an assembler refuses a larger one and never truncates it", and
`.WORD` places any 20-bit value as it stands. -/
def Obligations.AssemblerRefusesWhatDoesNotFit : Prop :=
  ∀ n : Nat,
    assemble (.ld n) = (if n ≤ 0xFFFF then some (encode (.ld (BitVec.ofNat 16 n))) else none) ∧
    assemble (.shb n) = (if n ≤ 1 then some (encode (.shb (BitVec.ofNat 1 n))) else none) ∧
    assemble (.shw n) = (if n ≤ 0xFF then some (encode (.shw (BitVec.ofNat 8 n))) else none) ∧
    assemble (.upd n) = (if n ≤ 0xFF then some (encode (.upd (BitVec.ofNat 8 n))) else none) ∧
    assemble (.tbl n) = (if n ≤ 0xFF then some (encode (.tbl (BitVec.ofNat 8 n))) else none) ∧
    assemble (.word n) = (if n ≤ 0xFFFFF then some (BitVec.ofNat 20 n) else none)

/-- R38: each pseudo-instruction is another name of one command, has that command's word, is no row of the opcode table,
and does what its "meaning" column says: `CLR` sets the state to 0, `RD` reads it, `SHZ` multiplies it by x^8 modulo the polynomial. -/
def Obligations.PseudoInstructionsAreSynonyms : Prop :=
  (assemble .clr = assemble (.ld 0x0000) ∧ assemble .clr = some 0x10000) ∧
  (assemble .rd = assemble .nop ∧ assemble .rd = some 0x00000) ∧
  (assemble .shz = assemble (.shw 0x00) ∧ assemble .shz = some 0x30000) ∧
  (∀ r ∈ opcodeTable, r.mnemonic ≠ "CLR" ∧ r.mnemonic ≠ "RD" ∧ r.mnemonic ≠ "SHZ") ∧
  (∀ (s : State) (rest : List Letter), Running s → s.pending = .command 0x10000 :: rest →
    step s = .next { s with S := 0x0000, pending := rest, responses := s.responses ++ [⟨0x0000, false⟩] }) ∧
  (∀ (s : State) (rest : List Letter), Running s → s.pending = .command 0x00000 :: rest →
    step s = .next { s with pending := rest, responses := s.responses ++ [⟨s.S, false⟩] }) ∧
  (∀ (s : State) (rest : List Letter), Running s → s.pending = .command 0x30000 :: rest →
    ∃ v, toPoly v = (toPoly s.S * Polynomial.X ^ 8) %ₘ P ∧
      step s = .next { s with S := v, pending := rest, responses := s.responses ++ [⟨v, false⟩] })

/-! ### The functions and the table (40_bit_serial_shift.md, 41_table_driven_update.md, 43_equivalence_laws.md) -/

/-- R41: the wiring of `shiftBit` at the engine's constants, bit by bit and in the two forms the rule gives; the feedback
bit, bit 16 of `t`, is bit 15 of the old state whatever bit enters, and the final mask removes nothing. -/
def Obligations.ShiftBitWiring : Prop :=
  ∀ (s : LfsrWord) (bit : Bit),
    let n := shiftBit 16 POLY s bit
    let f := s.getLsbD 15
    n.getLsbD 0 = (bit.getLsbD 0 ^^ f) ∧ n.getLsbD 1 = s.getLsbD 0 ∧ n.getLsbD 2 = (s.getLsbD 1 ^^ f) ∧
    (∀ i, 3 ≤ i → i ≤ 14 → n.getLsbD i = s.getLsbD (i - 1)) ∧ n.getLsbD 15 = (s.getLsbD 14 ^^ f) ∧
    (f = false → n = (s <<< 1) ||| bit.setWidth 16) ∧
    (f = true → n = ((s <<< 1) ||| bit.setWidth 16) ^^^ 0x8005#16) ∧
    (let t : BitVec 17 := (s.setWidth 17 <<< 1) ||| bit.setWidth 17
     t.getLsbD 16 = f ∧ (f = true → (t ^^^ POLY.bits).getLsbD 16 = false))

/-- R66, at every order and every polynomial whose highest set bit is bit `order`:
`shiftBit(o, p, s, b) = (s·x + b) mod p`. -/
def Obligations.ShiftBitIsRemainder : Prop :=
  ∀ (order : Nat) (p : Generator order) (s : BitVec order) (b : Bit),
    toPoly (shiftBit order p s b) = (toPoly s * Polynomial.X + toPoly b) %ₘ toPoly p.bits

/-- R67: `shiftWord(o, p, s, w, n) = (s·x^n + w) mod p`; `TABLE[w] = (w·x^16) mod P`; `buildTable(o, p, n)[w] =
(w·x^o) mod p`, so that a longer table extends a shorter one. -/
def Obligations.ShiftWordIsRemainder : Prop :=
  (∀ (order : Nat) (p : Generator order) (s : BitVec order) (n : Nat) (w : BitVec n),
    toPoly (shiftWord order p s n w) = (toPoly s * Polynomial.X ^ n + toPoly w) %ₘ toPoly p.bits) ∧
  (∀ w : Byte, toPoly (TABLE w) = (toPoly w * Polynomial.X ^ 16) %ₘ P) ∧
  (∀ (order : Nat) (p : Generator order) (n : Nat) (bound : WordBound order n) (w : BitVec n),
    toPoly (buildTable order p n bound w) = (toPoly w * Polynomial.X ^ order) %ₘ toPoly p.bits) ∧
  (∀ (order : Nat) (p : Generator order) (n n' : Nat) (bound : WordBound order n) (bound' : WordBound order n')
    (w : BitVec n), n ≤ n' → buildTable order p n' bound' (w.setWidth n') = buildTable order p n bound w)

/-- R43 (a) to (e): `shiftWord` reads the low `wordLength` bits of a wider word alone; it composes over concatenation;
at length 1 it is `shiftBit`; with the top bits of the state zero it fills, so that the first two bytes after 0 are
copied into `S`; zero stays zero. -/
def Obligations.ShiftWordProperties : Prop :=
  ∀ (order : Nat) (p : Generator order) (s : BitVec order),
    (∀ (n width : Nat) (word : BitVec width), n ≤ width →
      shiftLow order p word n s = shiftWord order p s n (word.setWidth n)) ∧
    (∀ (m n : Nat) (a : BitVec m) (b : BitVec n),
      shiftWord order p s (m + n) (a ++ b) = shiftWord order p (shiftWord order p s m a) n b) ∧
    (∀ bit : Bit, shiftWord order p s 1 bit = shiftBit order p s bit) ∧
    (∀ (n : Nat) (w : BitVec n), n ≤ order → s.toNat < 2 ^ (order - n) →
      shiftWord order p s n w = (s <<< n) ||| w.setWidth order) ∧
    (∀ a b : Byte, shiftWord 16 POLY (shiftWord 16 POLY 0 8 a) 8 b = a ++ b) ∧
    (∀ n : Nat, shiftWord order p 0 n 0 = 0)

/-- R51: `TABLE[w] = shiftWord(16, 0x18005, w << 8, 0, 8)` for every `w`; the table of the losing reading of
90_conflicts.md C1, in which `w` itself is shifted in, differs from it at every index but 0. -/
def Obligations.TableShiftsOutItsIndex : Prop :=
  ∀ w : Byte, TABLE w = shiftWord 16 POLY (w ++ 0x00#8) 8 0x00 ∧
    (w ≠ 0 → TABLE w ≠ shiftWord 16 POLY (w ++ 0x00#8) 8 w)

/-- R52: the listing of the 256 entries, row by row, and the checks on it: entry 0, the eight entries at the powers of
two, every entry the XOR of those at the set bits of its index, no two entries equal, the XOR and the sum of all, and
the parity of the index in bits 15 and 0. -/
def Obligations.TableListingAndChecks : Prop :=
  (tableEntries TABLE =
    [0x0000#16, 0x8005, 0x800F, 0x000A, 0x801B, 0x001E, 0x0014, 0x8011]
    ++ [0x8033#16, 0x0036, 0x003C, 0x8039, 0x0028, 0x802D, 0x8027, 0x0022]
    ++ [0x8063#16, 0x0066, 0x006C, 0x8069, 0x0078, 0x807D, 0x8077, 0x0072]
    ++ [0x0050#16, 0x8055, 0x805F, 0x005A, 0x804B, 0x004E, 0x0044, 0x8041]
    ++ [0x80C3#16, 0x00C6, 0x00CC, 0x80C9, 0x00D8, 0x80DD, 0x80D7, 0x00D2]
    ++ [0x00F0#16, 0x80F5, 0x80FF, 0x00FA, 0x80EB, 0x00EE, 0x00E4, 0x80E1]
    ++ [0x00A0#16, 0x80A5, 0x80AF, 0x00AA, 0x80BB, 0x00BE, 0x00B4, 0x80B1]
    ++ [0x8093#16, 0x0096, 0x009C, 0x8099, 0x0088, 0x808D, 0x8087, 0x0082]
    ++ [0x8183#16, 0x0186, 0x018C, 0x8189, 0x0198, 0x819D, 0x8197, 0x0192]
    ++ [0x01B0#16, 0x81B5, 0x81BF, 0x01BA, 0x81AB, 0x01AE, 0x01A4, 0x81A1]
    ++ [0x01E0#16, 0x81E5, 0x81EF, 0x01EA, 0x81FB, 0x01FE, 0x01F4, 0x81F1]
    ++ [0x81D3#16, 0x01D6, 0x01DC, 0x81D9, 0x01C8, 0x81CD, 0x81C7, 0x01C2]
    ++ [0x0140#16, 0x8145, 0x814F, 0x014A, 0x815B, 0x015E, 0x0154, 0x8151]
    ++ [0x8173#16, 0x0176, 0x017C, 0x8179, 0x0168, 0x816D, 0x8167, 0x0162]
    ++ [0x8123#16, 0x0126, 0x012C, 0x8129, 0x0138, 0x813D, 0x8137, 0x0132]
    ++ [0x0110#16, 0x8115, 0x811F, 0x011A, 0x810B, 0x010E, 0x0104, 0x8101]
    ++ [0x8303#16, 0x0306, 0x030C, 0x8309, 0x0318, 0x831D, 0x8317, 0x0312]
    ++ [0x0330#16, 0x8335, 0x833F, 0x033A, 0x832B, 0x032E, 0x0324, 0x8321]
    ++ [0x0360#16, 0x8365, 0x836F, 0x036A, 0x837B, 0x037E, 0x0374, 0x8371]
    ++ [0x8353#16, 0x0356, 0x035C, 0x8359, 0x0348, 0x834D, 0x8347, 0x0342]
    ++ [0x03C0#16, 0x83C5, 0x83CF, 0x03CA, 0x83DB, 0x03DE, 0x03D4, 0x83D1]
    ++ [0x83F3#16, 0x03F6, 0x03FC, 0x83F9, 0x03E8, 0x83ED, 0x83E7, 0x03E2]
    ++ [0x83A3#16, 0x03A6, 0x03AC, 0x83A9, 0x03B8, 0x83BD, 0x83B7, 0x03B2]
    ++ [0x0390#16, 0x8395, 0x839F, 0x039A, 0x838B, 0x038E, 0x0384, 0x8381]
    ++ [0x0280#16, 0x8285, 0x828F, 0x028A, 0x829B, 0x029E, 0x0294, 0x8291]
    ++ [0x82B3#16, 0x02B6, 0x02BC, 0x82B9, 0x02A8, 0x82AD, 0x82A7, 0x02A2]
    ++ [0x82E3#16, 0x02E6, 0x02EC, 0x82E9, 0x02F8, 0x82FD, 0x82F7, 0x02F2]
    ++ [0x02D0#16, 0x82D5, 0x82DF, 0x02DA, 0x82CB, 0x02CE, 0x02C4, 0x82C1]
    ++ [0x8243#16, 0x0246, 0x024C, 0x8249, 0x0258, 0x825D, 0x8257, 0x0252]
    ++ [0x0270#16, 0x8275, 0x827F, 0x027A, 0x826B, 0x026E, 0x0264, 0x8261]
    ++ [0x0220#16, 0x8225, 0x822F, 0x022A, 0x823B, 0x023E, 0x0234, 0x8231]
    ++ [0x8213#16, 0x0216, 0x021C, 0x8219, 0x0208, 0x820D, 0x8207, 0x0202]) ∧
  TABLE 0 = 0 ∧
  (TABLE 0x01 = 0x8005 ∧ TABLE 0x02 = 0x800F ∧ TABLE 0x04 = 0x801B ∧ TABLE 0x08 = 0x8033 ∧
    TABLE 0x10 = 0x8063 ∧ TABLE 0x20 = 0x80C3 ∧ TABLE 0x40 = 0x8183 ∧ TABLE 0x80 = 0x8303) ∧
  (∀ i : Byte, TABLE i = (List.range 8).foldl
    (fun acc k => if i.getLsbD k then acc ^^^ TABLE (1#8 <<< k) else acc) 0) ∧
  (tableEntries TABLE).Nodup ∧
  (tableEntries TABLE).foldl (· ^^^ ·) 0 = 0 ∧
  ((tableEntries TABLE).map BitVec.toNat).sum = 4325248 ∧
  (∀ i : Byte, (TABLE i).getLsbD 15 = (List.range 8).foldl (fun acc k => acc ^^ i.getLsbD k) false ∧
    (TABLE i).getLsbD 0 = (List.range 8).foldl (fun acc k => acc ^^ i.getLsbD k) false) ∧
  ((tableEntries TABLE).filter fun e => e.getLsbD 15).length = 128

/-- R54: at the engine's constants the new state is `{ S[7:0], w } ^ TABLE[S[15:8]]`, the index taken from the OLD
state; with the high byte zero the step is the pure fill `{ S[7:0], w }`; masking before the XOR gives the same. -/
def Obligations.TableUpdateWiring : Prop :=
  ∀ (s : LfsrWord) (w : Byte),
    updateTableDriven 16 8 engine_bound TABLE s w
      = (s.extractLsb' 0 8 ++ w) ^^^ TABLE (s.extractLsb' 8 8) ∧
    (s.extractLsb' 8 8 = 0 →
      updateTableDriven 16 8 engine_bound TABLE s w = s.extractLsb' 0 8 ++ w) ∧
    updateTableDriven 16 8 engine_bound TABLE s w
      = (s.setWidth 24 <<< 8 ||| w.setWidth 24).setWidth 16 ^^^ TABLE (s.extractLsb' 8 8)

/-- R25: UPD makes one read of the table, at the index `S[15:8]`: two tables that agree there give the same state, and
two that differ there do not. -/
def Obligations.UpdateReadsOneEntry : Prop :=
  ∀ (table table' : Table 16 8) (s : LfsrWord) (w : Byte),
    (table (s.extractLsb' 8 8) = table' (s.extractLsb' 8 8) ↔
      updateTableDriven 16 8 engine_bound table s w = updateTableDriven 16 8 engine_bound table' s w)

/-- R65, "the correctness contract of the whole design", over every state and every byte, and R70's form of it for any
order, any word length with 1 ≤ n ≤ o and any polynomial whose highest set bit is bit o. -/
def Obligations.DatapathsAgree : Prop :=
  (∀ (s : LfsrWord) (b : Byte),
    updateTableDriven 16 8 engine_bound TABLE s b = shiftWord 16 POLY s 8 b) ∧
  (∀ (order n : Nat) (bound : WordBound order n) (p : Generator order) (s : BitVec order) (w : BitVec n),
    updateTableDriven order n bound (buildTable order p n bound) s w = shiftWord order p s n w)

/-- R72, `wordLength == order`: `initialState = w`, the index is the state, the update is `word ^ table[state]`, the
contract still holds, and the 65536 entries of the table at (16, P, 16), three
of them with their values. -/
def Obligations.BoundaryInstance : Prop :=
  (∀ (order : Nat) (bound : WordBound order order) (p : Generator order) (s w : BitVec order),
    buildTable order p order bound w = shiftWord order p w order 0 ∧
    (∀ table : Table order order, updateTableDriven order order bound table s w = w ^^^ table s) ∧
    updateTableDriven order order bound (buildTable order p order bound) s w = shiftWord order p s order w) ∧
  (∀ bound : WordBound 16 16,
    buildTable 16 POLY 16 bound 0x0001 = 0x8005 ∧ buildTable 16 POLY 16 bound 0x0100 = 0x8603 ∧
    buildTable 16 POLY 16 bound 0xFFFF = 0x800D ∧ (tableEntries (buildTable 16 POLY 16 bound)).length = 65536)

/-- R73: (a) the three functions are linear over GF(2); (b) so is the table; (c) the table is injective; (d) for a fixed
byte both word steps are bijections of the 65536 states. -/
def Obligations.DatapathsAreLinear : Prop :=
  (∀ (order : Nat) (p : Generator order) (s₁ s₂ : BitVec order),
    (∀ b₁ b₂ : Bit, shiftBit order p (s₁ ^^^ s₂) (b₁ ^^^ b₂) = shiftBit order p s₁ b₁ ^^^ shiftBit order p s₂ b₂) ∧
    (∀ (n : Nat) (w₁ w₂ : BitVec n), shiftWord order p (s₁ ^^^ s₂) n (w₁ ^^^ w₂)
      = shiftWord order p s₁ n w₁ ^^^ shiftWord order p s₂ n w₂) ∧
    (∀ (n : Nat) (bound : WordBound order n) (w₁ w₂ : BitVec n),
      updateTableDriven order n bound (buildTable order p n bound) (s₁ ^^^ s₂) (w₁ ^^^ w₂)
        = updateTableDriven order n bound (buildTable order p n bound) s₁ w₁
          ^^^ updateTableDriven order n bound (buildTable order p n bound) s₂ w₂)) ∧
  ((∀ a b : Byte, TABLE (a ^^^ b) = TABLE a ^^^ TABLE b) ∧ TABLE 0 = 0) ∧
  Function.Injective TABLE ∧
  (∀ w : Byte, Function.Bijective (fun s : LfsrWord => shiftWord 16 POLY s 8 w) ∧
    Function.Bijective (fun s : LfsrWord => updateTableDriven 16 8 engine_bound TABLE s w))

/-! ### The commands: result, completion, frame and fail-stop in one equation each -/

/-- R60: NOP, with or without fail-stop, changes nothing and responds `q` = `S`; its one word is 0x00000. -/
def Obligations.NopReadsTheState : Prop :=
  (∀ s : State, s.phase = .ready →
    exec .nop s = .next { s with responses := s.responses ++ [⟨s.S, s.ERR⟩] }) ∧
  encode .nop = 0x00000 ∧
  (∀ cmd : CommandWord, cmd.extractLsb' 16 4 = 0x0#4 → cmd.extractLsb' 0 16 ≠ 0 → legal cmd = false)

/-- R61: LD gives `S` the value `imm` whatever it held and responds it; in fail-stop it loads nothing and `ERR` stays;
every word with `op` = 0x1 is LD. -/
def Obligations.LdLoadsTheState : Prop :=
  (∀ (imm : LfsrWord) (s : State), s.phase = .ready → s.ERR = false →
    exec (.ld imm) s = .next { s with S := imm, responses := s.responses ++ [⟨imm, false⟩] }) ∧
  (∀ (imm : LfsrWord) (s : State), s.phase = .ready → s.ERR = true →
    exec (.ld imm) s = .next { s with responses := s.responses ++ [⟨s.S, true⟩] }) ∧
  (∀ cmd : CommandWord, cmd.extractLsb' 16 4 = 0x1#4 → decode cmd = .ok (.ld (cmd.extractLsb' 0 16)))

/-- R44: SHB writes `shiftBit(16, 0x18005, S, b)` and responds it; in fail-stop it does nothing; its words are 0x20000
and 0x20001, and a word with `op` = 0x2 and any of `arg[15:1]` set is illegal and raises `IllegalCommand`. -/
def Obligations.ShbShiftsOneBit : Prop :=
  (∀ (b : Bit) (s : State), s.phase = .ready → s.ERR = false →
    exec (.shb b) s = .next { s with
      S := shiftBit 16 POLY s.S b, responses := s.responses ++ [⟨shiftBit 16 POLY s.S b, false⟩] }) ∧
  (∀ (b : Bit) (s : State), s.phase = .ready → s.ERR = true →
    exec (.shb b) s = .next { s with responses := s.responses ++ [⟨s.S, true⟩] }) ∧
  encode (.shb 0) = 0x20000 ∧ encode (.shb 1) = 0x20001 ∧
  (∀ cmd : CommandWord, cmd.extractLsb' 16 4 = 0x2#4 → cmd.extractLsb' 1 15 ≠ 0 → legal cmd = false ∧
    ∀ (s : State) (rest : List Letter), Running s → s.pending = .command cmd :: rest →
      step s = .next { s with ERR := true, pending := rest, responses := s.responses ++ [⟨s.S, true⟩] })

/-- R45: SHW writes the state after eight `shiftBit`, `w[7]` first, and responds it; in fail-stop it does nothing; its
words are 0x30000 to 0x300FF, and a word with `op` = 0x3 and any of `arg[15:8]` set is illegal. -/
def Obligations.ShwShiftsOneByte : Prop :=
  (∀ (w : Byte) (s : State), s.phase = .ready → s.ERR = false →
    exec (.shw w) s = .next { s with
      S := shiftWord 16 POLY s.S 8 w, responses := s.responses ++ [⟨shiftWord 16 POLY s.S 8 w, false⟩] }) ∧
  (∀ (w : Byte) (s : State), shiftWord 16 POLY s.S 8 w
    = [7, 6, 5, 4, 3, 2, 1, 0].foldl (fun v k => shiftBit 16 POLY v (w.extractLsb' k 1)) s.S) ∧
  (∀ (w : Byte) (s : State), s.phase = .ready → s.ERR = true →
    exec (.shw w) s = .next { s with responses := s.responses ++ [⟨s.S, true⟩] }) ∧
  (∀ w : Byte, (encode (.shw w)).toNat = 0x30000 + w.toNat) ∧
  (∀ cmd : CommandWord, cmd.extractLsb' 16 4 = 0x3#4 → cmd.extractLsb' 8 8 ≠ 0 → legal cmd = false)

/-- R56: UPD writes `{ S[7:0], w } ^ TABLE[S[15:8]]` and responds it; in fail-stop it does nothing; its words are
0x40000 to 0x400FF, and a word with `op` = 0x4 and any of `arg[15:8]` set is illegal. -/
def Obligations.UpdUpdatesThroughTheTable : Prop :=
  (∀ (w : Byte) (s : State), s.phase = .ready → s.ERR = false →
    let v := (s.S.extractLsb' 0 8 ++ w) ^^^ TABLE (s.S.extractLsb' 8 8)
    exec (.upd w) s = .next { s with S := v, responses := s.responses ++ [⟨v, false⟩] }) ∧
  (∀ (w : Byte) (s : State), s.phase = .ready → s.ERR = true →
    exec (.upd w) s = .next { s with responses := s.responses ++ [⟨s.S, true⟩] }) ∧
  (∀ w : Byte, (encode (.upd w)).toNat = 0x40000 + w.toNat) ∧
  (∀ cmd : CommandWord, cmd.extractLsb' 16 4 = 0x4#4 → cmd.extractLsb' 8 8 ≠ 0 → legal cmd = false)

/-- R55: TBL responds the entry `TABLE[i]` and changes no state; in fail-stop it responds `S`; its words are 0x50000 to
0x500FF, and a word with `op` = 0x5 and any of `arg[15:8]` set is illegal. -/
def Obligations.TblReadsOneEntry : Prop :=
  (∀ (i : Byte) (s : State), s.phase = .ready → s.ERR = false →
    exec (.tbl i) s = .next { s with responses := s.responses ++ [⟨TABLE i, false⟩] }) ∧
  (∀ (i : Byte) (s : State), s.phase = .ready → s.ERR = true →
    exec (.tbl i) s = .next { s with responses := s.responses ++ [⟨s.S, true⟩] }) ∧
  (∀ i : Byte, (encode (.tbl i)).toNat = 0x50000 + i.toNat) ∧
  (∀ cmd : CommandWord, cmd.extractLsb' 16 4 = 0x5#4 → cmd.extractLsb' 8 8 ≠ 0 → legal cmd = false)

/-- The contract at the command level: UPD and SHW of the same byte have the same outcome in every state, the response
included ("identical to those of `SHW w` from the same state, for every `S` and every `w`", R56; R87). -/
def Obligations.UpdAndShwAreOneCommand : Prop :=
  ∀ (w : Byte) (s : State), exec (.upd w) s = exec (.shw w) s

/-- The frame of all six commands (R11, R12, R32): a command that answers a next state leaves `ERR`, the phase and the
host's list as they were and adds one response after the earlier ones; NOP, TBL and every command in fail-stop leave
`S`. -/
def Obligations.CommandFrame : Prop :=
  ∀ (i : Instr) (s t : State), exec i s = .next t →
    t.ERR = s.ERR ∧ t.phase = s.phase ∧ t.pending = s.pending ∧
    (∃ q, t.responses = s.responses ++ [⟨q, s.ERR⟩]) ∧
    ((i = .nop ∨ (∃ k, i = .tbl k) ∨ s.ERR = true) → t.S = s.S)

/-! ### The step: letters, exceptions, Reset (60_exceptions.md, 70_reset_and_hazards.md) -/

/-- When the letter next in the host's list is a word that decodes to `i`, the step is `exec i` once that letter has left
the list; nothing else stands around `exec`. -/
def Obligations.StepRunsTheDecodedCommand : Prop :=
  ∀ (s : State) (cmd : CommandWord) (rest : List Letter) (i : Instr),
    s.pending = .command cmd :: rest → decode cmd = .ok i → step s = exec i { s with pending := rest }

/-- R81, R82 and R85, the step function: first `ERR`, and in fail-stop the word, legal or not, changes nothing and the
response is `q` = `S`, `err` = 1; then legality, with one outcome for every illegal word, which is all of what
`IllegalCommand` does: `ERR <- 1`, `S` unchanged, `q <- S`, `err` = 1; then execution. -/
def Obligations.StepTestsInOrder : Prop :=
  ∀ (s : State) (cmd : CommandWord) (rest : List Letter), s.phase = .ready → s.pending = .command cmd :: rest →
    (s.ERR = true → step s = .next { s with pending := rest, responses := s.responses ++ [⟨s.S, true⟩] }) ∧
    (s.ERR = false → legal cmd = false →
      step s = .next { s with ERR := true, pending := rest, responses := s.responses ++ [⟨s.S, true⟩] }) ∧
    (s.ERR = false → ∀ i, decode cmd = .ok i → step s = exec i { s with pending := rest })

/-- R80: "no legal command ... ever faults, whatever `S` holds and whatever its operand"; and where a step sets `ERR`,
the word it was given is illegal. -/
def Obligations.LegalCommandsNeverFault : Prop :=
  ∀ (s : State) (cmd : CommandWord) (rest : List Letter), Running s → s.pending = .command cmd :: rest →
    (legal cmd = true → ∃ t, step s = .next t ∧ Running t ∧
      ∃ q, t.responses = s.responses ++ [⟨q, false⟩]) ∧
    (∀ t, step s = .next t → t.ERR = true → legal cmd = false)

/-- R12: what a step does to `ERR`: Reset clears it, an illegal word sets it, no other step changes it, the response's
`err` is its value after the step, and while it is 1 no command changes `S`. -/
def Obligations.ErrIsSticky : Prop :=
  ∀ (s t : State) (l : Letter) (rest : List Letter), s.pending = l :: rest → step s = .next t →
    (l = .reset → t.ERR = false) ∧
    (∀ cmd, l = .command cmd → t.ERR = (s.ERR || !legal cmd) ∧
      (∃ q, t.responses = s.responses ++ [⟨q, t.ERR⟩]) ∧ (s.ERR = true → t.S = s.S))

/-- R84: the only step that leaves fail-stop is Reset, which clears `S` also: LD and `CLR` do not. -/
def Obligations.OnlyResetLeavesFailStop : Prop :=
  ∀ (s t : State) (l : Letter) (rest : List Letter), s.pending = l :: rest → s.ERR = true → step s = .next t →
    ((t.ERR = false ↔ l = .reset) ∧ (t.ERR = false → t.S = 0x0000))

/-- R32: every command word yields one response; `err` is `ERR` after the step; `q` is `imm` for LD, the new `S` for SHB,
SHW and UPD, `TABLE[i]` for TBL, and the unchanged `S` for NOP, for an illegal word and in fail-stop. -/
def Obligations.ResponseTable : Prop :=
  ∀ (s t : State) (cmd : CommandWord) (rest : List Letter), s.pending = .command cmd :: rest → step s = .next t →
    ∃ q, t.responses = s.responses ++ [⟨q, t.ERR⟩] ∧
      (s.ERR = true → q = s.S ∧ t.S = s.S ∧ t.ERR = true) ∧
      (s.ERR = false →
        match decode cmd with
        | .error _ => q = s.S ∧ t.S = s.S ∧ t.ERR = true
        | .ok .nop => q = s.S ∧ t.S = s.S ∧ t.ERR = false
        | .ok (.ld imm) => q = imm ∧ t.S = imm ∧ t.ERR = false
        | .ok (.shb _) => q = t.S ∧ t.ERR = false
        | .ok (.shw _) => q = t.S ∧ t.ERR = false
        | .ok (.upd _) => q = t.S ∧ t.ERR = false
        | .ok (.tbl i) => q = TABLE i ∧ t.S = s.S ∧ t.ERR = false)

/-- R90: Reset, from any state whatever, fail-stop and the power-on state among them, leaves `S` = 0x0000 and `ERR` = 0
and yields no response; that is the state the model starts from. -/
def Obligations.ResetFromAnyState : Prop :=
  (∀ (s : State) (rest : List Letter), s.pending = .reset :: rest →
    ∃ t, step s = .next t ∧ t.S = 0x0000 ∧ t.ERR = false ∧ t.responses = s.responses ∧ t.pending = rest) ∧
  State.reset.S = 0x0000 ∧ State.reset.ERR = false

/-- R91 and R92, in the form the model gives them (log entry 3; the phase is the model's choice): in the power-on state
every command faults with "state read before Reset", whatever its word; Reset makes the engine ready; and no step from
that state depends on the values in `S` and `ERR`. -/
def Obligations.PowerOnStateIsNeverRead : Prop :=
  ∀ s : State, s.phase = .unreset →
    (∀ i, exec i s = .fault .stateReadBeforeReset) ∧
    (∀ cmd rest, s.pending = .command cmd :: rest → step s = .fault .stateReadBeforeReset) ∧
    (∀ rest, s.pending = .reset :: rest → ∃ t, step s = .next t ∧ Running t) ∧
    (∀ (v : LfsrWord) (e : Bool), step { s with S := v, ERR := e } = step s)

/-- R14 and R39: whatever the letter and whatever the response, a step takes one letter from the host's list and leaves
the rest in order; with none left there is no step, by the model's own name for it (log entry 5). -/
def Obligations.StepTakesOneLetter : Prop :=
  (∀ s t : State, step s = .next t → ∃ l, s.pending = l :: t.pending) ∧
  (∀ s : State, s.pending = [] ↔ step s = .refused .endOfRun)

/-- R17 and R76: two engines with equal `S` and `ERR`, given the same letter, go to equal `S` and `ERR` and yield the
same response, whatever earlier responses and later letters their hosts have. -/
def Obligations.StepDependsOnEngineStateOnly : Prop :=
  ∀ (s s' t : State) (l : Letter) (rest rest' : List Letter),
    s.S = s'.S → s.ERR = s'.ERR → s.phase = s'.phase → s.pending = l :: rest → s'.pending = l :: rest' →
    step s = .next t →
    ∃ t' new, step s' = .next t' ∧ t'.S = t.S ∧ t'.ERR = t.ERR ∧ t'.phase = t.phase ∧
      t.responses = s.responses ++ new ∧ t'.responses = s'.responses ++ new ∧ t.pending = rest ∧ t'.pending = rest'

/-- R94: after a Reset the engine accepts every letter it is given: it never refuses, stalls or hangs. -/
def Obligations.EngineIsAlwaysReady : Prop :=
  ∀ (s : State) (l : Letter) (rest : List Letter), s.phase = .ready → s.pending = l :: rest →
    ∃ t, step s = .next t ∧ t.phase = .ready ∧ t.pending = rest

/-- The host's word interface of this row (log entries 1 and 10): a 20-bit number placed in a state is the next command
the step runs, whatever the host had to give before. -/
def Obligations.PlacedWordRunsNext : Prop :=
  ∀ (s : State) (nbits w : Nat) (i : Instr), 20 ≤ nbits → w < 2 ^ 20 → decodeTableWord nbits w = some i →
    step (s.withFetchWord nbits w) = exec i s

/-! ### Runs (43_equivalence_laws.md, 70_reset_and_hazards.md) -/

/-- R71: from `S` = 0 two bytes through either datapath, `r[15:8]` then `r[7:0]`, leave `S = r` for every `r`; LD does so
in one step from any state; a non-zero byte takes the zero state away from zero; a non-zero state can step to zero. -/
def Obligations.EveryStateIsReachable : Prop :=
  (∀ (s : State) (r : LfsrWord) (d₁ d₂ : Datapath), Running s → s.S = 0 →
    s.pending = giveBytes [(d₁, r.extractLsb' 8 8), (d₂, r.extractLsb' 0 8)] →
    ∃ t, core.run 2 s = .next t ∧ t.S = r ∧ Running t) ∧
  (∀ (s : State) (r : LfsrWord), Running s → ∃ t, exec (.ld r) s = .next t ∧ t.S = r) ∧
  (∀ (s : State) (d : Datapath) (w : Byte), Running s → s.S = 0 → w ≠ 0 →
    ∃ t, exec (byteCommand d w) s = .next t ∧ t.S ≠ 0) ∧
  shiftBit 16 POLY 0xC002 1 = 0

/-- R74: `UPD w`, `SHW w` and the eight SHB from `w[7]` to `w[0]` leave the same `S` and their last responses carry it,
after one, one and eight responses; and over a message any choice of UPD and SHW byte by byte leaves the same `S`. -/
def Obligations.ThreeSequencesAgree : Prop :=
  (∀ (s : State) (w : Byte), Running s →
    ∃ v a b c, core.run 1 { s with pending := give [.upd w] } = .next a ∧
      core.run 1 { s with pending := give [.shw w] } = .next b ∧
      core.run 8 { s with pending := giveBits w } = .next c ∧
      (a.S = v ∧ b.S = v ∧ c.S = v) ∧
      a.responses = s.responses ++ [⟨v, false⟩] ∧ b.responses = s.responses ++ [⟨v, false⟩] ∧
      ∃ seven, seven.length = 7 ∧ c.responses = s.responses ++ seven ++ [⟨v, false⟩]) ∧
  (∀ (s : State) (m m' : List (Datapath × Byte)), Running s → m.map Prod.snd = m'.map Prod.snd →
    ∃ a b, core.run m.length { s with pending := giveBytes m } = .next a ∧
      core.run m'.length { s with pending := giveBytes m' } = .next b ∧ a.S = b.S)

/-- R68, the running value: from `S_0`, after the bytes of a message given each by SHW or UPD, `S` is
`(S_0·x^(8k) + M) mod P`; two more zero bytes leave the remainder of `M·x^16` when `S_0` = 0; and the message followed
by the two bytes of that remainder, high byte first, ends at 0x0000. -/
def Obligations.RunningValueIsRemainder : Prop :=
  (∀ (s : State) (m : List (Datapath × Byte)), Running s → s.pending = giveBytes m →
    ∃ t, core.run m.length s = .next t ∧ Running t ∧
      toPoly t.S = (toPoly s.S * Polynomial.X ^ (8 * m.length) + messagePoly (m.map Prod.snd)) %ₘ P) ∧
  (∀ (s : State) (m : List (Datapath × Byte)) (d₁ d₂ : Datapath), Running s → s.S = 0 →
    ∃ t u, core.run (m.length + 2) { s with pending := giveBytes (m ++ [(.bitSerial, 0), (.bitSerial, 0)]) } = .next t ∧
      toPoly t.S = (messagePoly (m.map Prod.snd) * Polynomial.X ^ 16) %ₘ P ∧
      core.run (m.length + 2) { s with
        pending := giveBytes (m ++ [(d₁, t.S.extractLsb' 8 8), (d₂, t.S.extractLsb' 0 8)]) } = .next u ∧
      u.S = 0x0000)

/-- R97: a run of a finite list, from any state that has been reset, ends when the list is exhausted, with one response
for each command word of the list and none for a Reset; then there is no further step, by the model's own name for it
(log entry 5). -/
def Obligations.EveryRunEnds : Prop :=
  ∀ s : State, s.phase = .ready →
    ∃ t new, core.run s.pending.length s = .next t ∧ t.pending = [] ∧ t.phase = .ready ∧
      t.responses = s.responses ++ new ∧ new.length = (s.pending.filter Letter.isCommand).length ∧
      step t = .refused .endOfRun

/-- R83: "a program made of legal words never sets `ERR`": its run ends not faulted and every response has `err` = 0. -/
def Obligations.LegalProgramsEndWell : Prop :=
  ∀ s : State, Running s → s.pending.all Letter.isLegal = true →
    ∃ t new, core.run s.pending.length s = .next t ∧ ¬ Faulted t ∧
      t.responses = s.responses ++ new ∧ (∀ r ∈ new, r.err = false)

/-- R97: a run is good when its final `ERR` is 0, "then every response had `err` = 0, or a Reset followed the fault": a
run that is faulted after some of its letters and not faulted at its end has a Reset among the letters between. -/
def Obligations.GoodEndAfterAFaultNeedsReset : Prop :=
  ∀ (s t u : State) (before after : List Letter), s.pending = before ++ after →
    core.run before.length s = .next t → Faulted t →
    core.run (before ++ after).length s = .next u → ¬ Faulted u → Letter.reset ∈ after

/-! ### The invariants -/

/-- Every step keeps the record of a fault: while the engine is faulted, the last response the host read carries
`err` = 1 and the value `S` still holds. It holds in every state it names, reachable or not. -/
def Obligations.StepKeepsFaultOnRecord : Prop :=
  ∀ s t : State, FaultIsOnRecord s → step s = .next t → FaultIsOnRecord t

/-- `FaultIsOnRecord` holds after Reset. -/
def Obligations.ResetMeetsFaultIsOnRecord : Prop :=
  FaultIsOnRecord State.reset

/-- R80 and R83 step by step: a running engine that has only legal words and Resets to come goes, at every step, to a
running engine that has only legal words and Resets to come. -/
def Obligations.StepKeepsOnlyLegalAhead : Prop :=
  ∀ s t : State, OnlyLegalAhead s → step s = .next t → OnlyLegalAhead t

/-- `OnlyLegalAhead` holds after Reset, with no letter given yet (log entry 1). -/
def Obligations.ResetMeetsOnlyLegalAhead : Prop :=
  OnlyLegalAhead State.reset
end

