-- ==== Sys2Proof/Laws/Decode.lean ====
section
/-! SUPPORT. The small lemmas of the decoder and the assembler. -/

namespace Sys2Proof

theorem legal_iff {cmd : CommandWord} : legal cmd = true ↔ ∃ i, decode cmd = .ok i := by
  unfold legal; split <;> simp_all

theorem legal_of_decode {cmd : CommandWord} {i : Instr} (h : decode cmd = .ok i) : legal cmd = true :=
  legal_iff.2 ⟨i, h⟩

theorem illegal_iff {cmd : CommandWord} : legal cmd = false ↔ ∃ r, decode cmd = .error r := by
  unfold legal; split <;> simp_all

theorem assemble_of_wellFormed {l : AsmLine} (h : l.wellFormed = true) : assemble l = some l.rawWord := by
  simp [assemble, h]

theorem assemble_refuses {l : AsmLine} (h : l.wellFormed = false) : assemble l = none := by
  simp [assemble, h]

/-- A number of 20 bits is a command word however many bits beyond 20 the host counts. -/
theorem tableWord_of_lt {nbits w : Nat} (hn : 20 ≤ nbits) (hw : w < 2 ^ 20) :
    tableWord nbits w = some (BitVec.ofNat 20 w) := by
  have small : w % 2 ^ nbits = w :=
    Nat.mod_eq_of_lt (Nat.lt_of_lt_of_le hw (Nat.pow_le_pow_right (by decide) hn))
  rw [tableWord, small, if_pos hw]

end Sys2Proof
end

