-- ==== Sys2Proof/Laws/Lfsr.lean ====
section
/-! SUPPORT. The small lemmas of the four functions, so that no proof unfolds the loop of `shiftWord` again. -/

namespace Sys2Proof.Machine

open Config

section Functions
variable {order : Nat} {polynomial : Generator order} {m : Nat}

@[simp] theorem shiftLow_zero (word : BitVec m) (state : BitVec order) :
    shiftLow order polynomial word 0 state = state := rfl

theorem shiftLow_succ (word : BitVec m) (k : Nat) (state : BitVec order) :
    shiftLow order polynomial word (k + 1) state =
      shiftLow order polynomial word k (shiftBit order polynomial state (bitAt word k)) := rfl

theorem shiftWord_eq_shiftLow (state : BitVec order) (n : Nat) (word : BitVec n) :
    shiftWord order polynomial state n word = shiftLow order polynomial word n state := rfl

theorem buildTable_apply {n : Nat} (bound : WordBound order n) (w : BitVec n) :
    buildTable order polynomial n bound w =
      shiftWord order polynomial (w.setWidth order <<< (order - n)) n 0 := rfl

/-- `shiftBit` bit by bit: each bit of the result is the bit that moves there, XORed with the polynomial's tap when
the bit that leaves the top is 1 (40_bit_serial_shift.md R40). -/
theorem shiftBit_getLsbD (state : BitVec order) (bit : Bit) (k : Nat) (hk : k < order) :
    (shiftBit order polynomial state bit).getLsbD k =
      ((if k = 0 then bit.getLsbD 0 else state.getLsbD (k - 1)) ^^
        (state.getLsbD (order - 1) && polynomial.bits.getLsbD k)) := by
  have top : (state.setWidth (order + 1) <<< 1 ||| bit.setWidth (order + 1)).getLsbD order =
      state.getLsbD (order - 1) := by
    have := bit.getLsbD_of_ge order
    simp only [BitVec.getLsbD_or, BitVec.getLsbD_shiftLeft, BitVec.getLsbD_setWidth]
    grind
  have low : (state.setWidth (order + 1) <<< 1 ||| bit.setWidth (order + 1)).getLsbD k =
      if k = 0 then bit.getLsbD 0 else state.getLsbD (k - 1) := by
    simp only [BitVec.getLsbD_or, BitVec.getLsbD_shiftLeft, BitVec.getLsbD_setWidth]
    grind
  simp only [shiftBit, top]
  by_cases feedback : state.getLsbD (order - 1) = true
  · rw [if_pos feedback, BitVec.getLsbD_setWidth, BitVec.getLsbD_xor, low, feedback]
    simp [hk]
  · rw [if_neg feedback, BitVec.getLsbD_setWidth, low]
    simp [hk, feedback]

end Functions

theorem TABLE_apply (i : Byte) : TABLE i = shiftWord 16 POLY (i.setWidth 16 <<< 8) 8 0 := rfl

theorem length_tableEntries {order n : Nat} (table : Table order n) : (tableEntries table).length = 2 ^ n := by
  simp [tableEntries]

end Sys2Proof.Machine
end

