-- ==== Sys2Proof/Laws/State.lean ====
section
/-! SUPPORT. One lemma for each field of each update of State, so that no proof unfolds a record update. -/

namespace Sys2Proof.Machine

variable (s : State) (v : LfsrWord)

@[simp] theorem State.writeS_S : (s.writeS v).S = v := rfl
@[simp] theorem State.writeS_ERR : (s.writeS v).ERR = s.ERR := rfl
@[simp] theorem State.writeS_phase : (s.writeS v).phase = s.phase := rfl
@[simp] theorem State.writeS_pending : (s.writeS v).pending = s.pending := rfl
@[simp] theorem State.writeS_responses : (s.writeS v).responses = s.responses := rfl

@[simp] theorem State.setErr_S : s.setErr.S = s.S := rfl
@[simp] theorem State.setErr_ERR : s.setErr.ERR = true := rfl
@[simp] theorem State.setErr_phase : s.setErr.phase = s.phase := rfl
@[simp] theorem State.setErr_pending : s.setErr.pending = s.pending := rfl
@[simp] theorem State.setErr_responses : s.setErr.responses = s.responses := rfl

@[simp] theorem State.clearErr_S : s.clearErr.S = s.S := rfl
@[simp] theorem State.clearErr_ERR : s.clearErr.ERR = false := rfl
@[simp] theorem State.clearErr_phase : s.clearErr.phase = s.phase := rfl
@[simp] theorem State.clearErr_pending : s.clearErr.pending = s.pending := rfl
@[simp] theorem State.clearErr_responses : s.clearErr.responses = s.responses := rfl

@[simp] theorem State.respond_S : (s.respond v).S = s.S := rfl
@[simp] theorem State.respond_ERR : (s.respond v).ERR = s.ERR := rfl
@[simp] theorem State.respond_phase : (s.respond v).phase = s.phase := rfl
@[simp] theorem State.respond_pending : (s.respond v).pending = s.pending := rfl
@[simp] theorem State.respond_responses : (s.respond v).responses = s.responses ++ [⟨v, s.ERR⟩] := rfl

@[simp] theorem State.writeAndRespond_S : (s.writeAndRespond v).S = v := rfl
@[simp] theorem State.writeAndRespond_ERR : (s.writeAndRespond v).ERR = s.ERR := rfl
@[simp] theorem State.writeAndRespond_phase : (s.writeAndRespond v).phase = s.phase := rfl
@[simp] theorem State.writeAndRespond_pending : (s.writeAndRespond v).pending = s.pending := rfl
@[simp] theorem State.writeAndRespond_responses :
    (s.writeAndRespond v).responses = s.responses ++ [⟨v, s.ERR⟩] := rfl

variable (rest : List Letter)

@[simp] theorem State.withPending_S : (s.withPending rest).S = s.S := rfl
@[simp] theorem State.withPending_ERR : (s.withPending rest).ERR = s.ERR := rfl
@[simp] theorem State.withPending_phase : (s.withPending rest).phase = s.phase := rfl
@[simp] theorem State.withPending_pending : (s.withPending rest).pending = rest := rfl
@[simp] theorem State.withPending_responses : (s.withPending rest).responses = s.responses := rfl

@[simp] theorem State.applyReset_S : s.applyReset.S = 0 := rfl
@[simp] theorem State.applyReset_ERR : s.applyReset.ERR = false := rfl
@[simp] theorem State.applyReset_phase : s.applyReset.phase = .ready := rfl
@[simp] theorem State.applyReset_pending : s.applyReset.pending = s.pending := rfl
@[simp] theorem State.applyReset_responses : s.applyReset.responses = s.responses := rfl

@[simp] theorem State.powerOn_S : s.powerOn.S = s.S := rfl
@[simp] theorem State.powerOn_ERR : s.powerOn.ERR = s.ERR := rfl
@[simp] theorem State.powerOn_phase : s.powerOn.phase = .unreset := rfl
@[simp] theorem State.powerOn_pending : s.powerOn.pending = s.pending := rfl
@[simp] theorem State.powerOn_responses : s.powerOn.responses = s.responses := rfl

@[simp] theorem State.raiseIllegalCommand_S : s.raiseIllegalCommand.S = s.S := rfl
@[simp] theorem State.raiseIllegalCommand_ERR : s.raiseIllegalCommand.ERR = true := rfl
@[simp] theorem State.raiseIllegalCommand_phase : s.raiseIllegalCommand.phase = s.phase := rfl
@[simp] theorem State.raiseIllegalCommand_pending : s.raiseIllegalCommand.pending = s.pending := rfl
@[simp] theorem State.raiseIllegalCommand_responses :
    s.raiseIllegalCommand.responses = s.responses ++ [⟨s.S, true⟩] := rfl

@[simp] theorem State.failStop_S : s.failStop.S = s.S := rfl
@[simp] theorem State.failStop_ERR : s.failStop.ERR = s.ERR := rfl
@[simp] theorem State.failStop_phase : s.failStop.phase = s.phase := rfl
@[simp] theorem State.failStop_pending : s.failStop.pending = s.pending := rfl
@[simp] theorem State.failStop_responses : s.failStop.responses = s.responses ++ [⟨s.S, s.ERR⟩] := rfl

end Sys2Proof.Machine
end

