-- ==== Sys2Proof/Laws/Ops.lean ====
section
/-! SUPPORT. What each shared operation can do, said once: the frame around a command, the letter, and the step. -/

namespace Sys2Proof.Machine

variable {s t : State} {act : State → Result} {run : Instr → State → Result}

theorem whenRunning_unreset (h : s.phase = .unreset) : whenRunning s act = .fault .stateReadBeforeReset := by
  simp [whenRunning, h]

theorem whenRunning_failStop (h : s.phase = .ready) (e : s.ERR = true) : whenRunning s act = .next s.failStop := by
  simp [whenRunning, h, State.inFailStop, e]

theorem whenRunning_running (h : s.phase = .ready) (e : s.ERR = false) : whenRunning s act = act s := by
  simp [whenRunning, h, State.inFailStop, e]

/-- What every command word meets first has three cases and no other. -/
theorem whenRunning_cases (s : State) (act : State → Result) :
    (s.phase = .unreset ∧ whenRunning s act = .fault .stateReadBeforeReset) ∨
    (s.phase = .ready ∧ s.ERR = true ∧ whenRunning s act = .next s.failStop) ∨
    (s.phase = .ready ∧ s.ERR = false ∧ whenRunning s act = act s) := by
  cases h : s.phase
  · exact .inl ⟨rfl, whenRunning_unreset h⟩
  · cases e : s.ERR
    · exact .inr (.inr ⟨rfl, rfl, whenRunning_running h e⟩)
    · exact .inr (.inl ⟨rfl, rfl, whenRunning_failStop h e⟩)

/-- The engine is ready wherever a command answers a next state. -/
theorem whenRunning_next_ready (h : whenRunning s act = .next t) : s.phase = .ready := by
  obtain ⟨_, e⟩ | ⟨p, _⟩ | ⟨p, _⟩ := whenRunning_cases s act
  · rw [e] at h; cases h
  · exact p
  · exact p

/-- Before the first Reset every command faults. -/
theorem exec_unreset (i : Instr) (h : s.phase = .unreset) : exec i s = .fault .stateReadBeforeReset := by
  cases i <;> (rw [exec]; exact whenRunning_unreset h)

/-- In fail-stop every command does the same. -/
theorem exec_failStop (i : Instr) (h : s.phase = .ready) (e : s.ERR = true) : exec i s = .next s.failStop := by
  cases i <;> (rw [exec]; exact whenRunning_failStop h e)

/-- A running engine executes every command to a next state, which either a new `S` or a response alone. -/
theorem exec_running (i : Instr) (h : s.phase = .ready) (e : s.ERR = false) :
    (∃ v, exec i s = .next (s.writeAndRespond v)) ∨ (∃ v, exec i s = .next (s.respond v)) := by
  cases i <;> rw [exec]
  case nop => exact .inr ⟨_, by rw [execNop, whenRunning_running h e]⟩
  case ld imm => exact .inl ⟨imm, by rw [execLd, whenRunning_running h e]⟩
  case shb b => exact .inl ⟨_, by rw [execShb, whenRunning_running h e]⟩
  case shw w => exact .inl ⟨_, by rw [execShw, whenRunning_running h e]⟩
  case upd w => exact .inl ⟨_, by rw [execUpd, whenRunning_running h e]⟩
  case tbl i => exact .inr ⟨_, by rw [execTbl, whenRunning_running h e]⟩

theorem giveCommand_error {cmd : CommandWord} {r : IllegalWord} (h : s.phase = .ready) (e : s.ERR = false)
    (d : decode cmd = .error r) : giveCommand run cmd s = .next s.raiseIllegalCommand := by
  rw [giveCommand, whenRunning_running h e, d]

theorem giveCommand_ok {cmd : CommandWord} {i : Instr} (h : s.phase = .ready) (e : s.ERR = false)
    (d : decode cmd = .ok i) : giveCommand run cmd s = run i s := by
  rw [giveCommand, whenRunning_running h e, d]

/-- With no letter left there is no step. -/
theorem step_endOfRun (h : s.pending = []) : step s = .refused .endOfRun := by
  simp [step, giveNext, h]

theorem step_letter {l : Letter} {rest : List Letter} (h : s.pending = l :: rest) :
    step s = giveLetter exec l (s.withPending rest) := by
  simp [step, giveNext, h]

theorem step_reset {rest : List Letter} (h : s.pending = .reset :: rest) :
    step s = .next (s.withPending rest).applyReset := by
  rw [step_letter h, giveLetter]

theorem step_command {cmd : CommandWord} {rest : List Letter} (h : s.pending = .command cmd :: rest) :
    step s = giveCommand exec cmd (s.withPending rest) := by
  rw [step_letter h, giveLetter]

/-- Everything a step that answers a next state can have done. -/
theorem step_next_cases (h : step s = .next t) :
    ∃ l rest, s.pending = l :: rest ∧
      ((l = .reset ∧ t = (s.withPending rest).applyReset) ∨
       (∃ cmd, l = .command cmd ∧ s.phase = .ready ∧
         ((s.ERR = true ∧ t = (s.withPending rest).failStop) ∨
          (s.ERR = false ∧ ((legal cmd = false ∧ t = (s.withPending rest).raiseIllegalCommand) ∨
            ∃ i, decode cmd = .ok i ∧ exec i (s.withPending rest) = .next t))))) := by
  cases hp : s.pending with
  | nil => rw [step_endOfRun hp] at h; cases h
  | cons l rest =>
    refine ⟨l, rest, rfl, ?_⟩
    cases l with
    | reset => rw [step_reset hp] at h; cases h; exact .inl ⟨rfl, rfl⟩
    | command cmd =>
      refine .inr ⟨cmd, rfl, ?_⟩
      rw [step_command hp] at h
      have ready : s.phase = .ready := whenRunning_next_ready (s := s.withPending rest) h
      refine ⟨ready, ?_⟩
      cases e : s.ERR with
      | true =>
        rw [giveCommand, whenRunning_failStop (s := s.withPending rest) ready e] at h
        cases h; exact .inl ⟨rfl, rfl⟩
      | false =>
        refine .inr ⟨rfl, ?_⟩
        cases d : decode cmd with
        | error r =>
          rw [giveCommand_error (s := s.withPending rest) ready e d] at h
          cases h; exact .inl ⟨by simp [legal, d], rfl⟩
        | ok i =>
          rw [giveCommand_ok (s := s.withPending rest) ready e d] at h
          exact .inr ⟨i, rfl, h⟩

end Sys2Proof.Machine
end

