-- ==== Sys2Proof/Laws/PerInstr.lean ====
section
/-! SUPPORT. What holds of every command as syntax, one lemma for each constructor: it is well-formed by the widths of
its operands, its row of the opcode table is the one of its mnemonic, and its word matches that row. -/

namespace Sys2Proof.Laws.Encoding

/-- A command is well-formed and its word is one of its row of 30_encoding.md R35. -/
def Statement (i : Instr) : Prop :=
  i.wellFormed = true ∧ i.row ∈ opcodeTable ∧ i.row.mnemonic = i.mnemonic ∧ i.row.accepts (encode i) = true

theorem accepts_iff (r : OpcodeRow) (cmd : CommandWord) : r.accepts cmd = true ↔ cmd &&& r.mask = r.matchBits := by
  simp [OpcodeRow.accepts]

theorem nop : Statement .nop := ⟨rfl, by decide, rfl, rfl⟩

theorem ld (imm : LfsrWord) : Statement (.ld imm) := by
  refine ⟨?_, by simp [Instr.row, opcodeTable], rfl, ?_⟩
  · have bound := imm.isLt
    simp only [Instr.wellFormed, Instr.toAsm, AsmLine.wellFormed, decide_eq_true_eq]
    omega
  · rw [accepts_iff, Instr.row, encode]
    ext k hk
    simp only [BitVec.getElem_and, BitVec.getElem_append]
    interval_cases k <;> simp

theorem shb (b : Bit) : Statement (.shb b) := by
  refine ⟨?_, by simp [Instr.row, opcodeTable], rfl, ?_⟩
  · have bound := b.isLt
    simp only [Instr.wellFormed, Instr.toAsm, AsmLine.wellFormed, decide_eq_true_eq]
    omega
  · rw [accepts_iff, Instr.row, encode]
    ext k hk
    simp only [BitVec.getElem_and, BitVec.getElem_append]
    interval_cases k <;> simp

theorem shw (w : Byte) : Statement (.shw w) := by
  refine ⟨?_, by simp [Instr.row, opcodeTable], rfl, ?_⟩
  · have bound := w.isLt
    simp only [Instr.wellFormed, Instr.toAsm, AsmLine.wellFormed, decide_eq_true_eq]
    omega
  · rw [accepts_iff, Instr.row, encode]
    ext k hk
    simp only [BitVec.getElem_and, BitVec.getElem_append]
    interval_cases k <;> simp

theorem upd (w : Byte) : Statement (.upd w) := by
  refine ⟨?_, by simp [Instr.row, opcodeTable], rfl, ?_⟩
  · have bound := w.isLt
    simp only [Instr.wellFormed, Instr.toAsm, AsmLine.wellFormed, decide_eq_true_eq]
    omega
  · rw [accepts_iff, Instr.row, encode]
    ext k hk
    simp only [BitVec.getElem_and, BitVec.getElem_append]
    interval_cases k <;> simp

theorem tbl (i : Byte) : Statement (.tbl i) := by
  refine ⟨?_, by simp [Instr.row, opcodeTable], rfl, ?_⟩
  · have bound := i.isLt
    simp only [Instr.wellFormed, Instr.toAsm, AsmLine.wellFormed, decide_eq_true_eq]
    omega
  · rw [accepts_iff, Instr.row, encode]
    ext k hk
    simp only [BitVec.getElem_and, BitVec.getElem_append]
    interval_cases k <;> simp

end Sys2Proof.Laws.Encoding
end

