-- ==== Sys2Proof/Laws/Run.lean ====
section
/-! SUPPORT. The equations of `Host.Core.run` at this machine, so that no proof unfolds it. -/

namespace Sys2Proof.Machine

variable {s t u : State} {n k : Nat}

@[simp] theorem run_zero : core.run 0 s = .next s := rfl

theorem run_succ_next (h : step s = .next t) : core.run (n + 1) s = core.run n t := by
  have h' : core.step s = .next t := h
  simp only [Host.Core.run, h']

theorem run_succ_fault {r : Fault} (h : step s = .fault r) : core.run (n + 1) s = .fault r := by
  have h' : core.step s = .fault r := h
  simp only [Host.Core.run, h']

theorem run_succ_refused {r : Refusal} (h : step s = .refused r) : core.run (n + 1) s = .refused r := by
  have h' : core.step s = .refused r := h
  simp only [Host.Core.run, h']

/-- A run that answers a next state took a first step that answers one. -/
theorem run_succ_cases (h : core.run (n + 1) s = .next u) : ∃ t, step s = .next t ∧ core.run n t = .next u := by
  cases first : step s with
  | next t => exact ⟨t, rfl, by rw [← run_succ_next first]; exact h⟩
  | fault r => rw [run_succ_fault first] at h; cases h
  | refused r => rw [run_succ_refused first] at h; cases h

/-- A run may be cut in two. -/
theorem run_append (h : core.run n s = .next t) : core.run (n + k) s = core.run k t := by
  induction n generalizing s with
  | zero => cases h; rw [Nat.zero_add]
  | succ n ih =>
    obtain ⟨m, first, rest⟩ := run_succ_cases h
    rw [Nat.add_right_comm, run_succ_next first]
    exact ih rest

end Sys2Proof.Machine
end

