-- ==== Sys2Proof/Tests/Slice0.lean ====
section
/-! SUPPORT. The model's own tests: expected values are from spec/95_test_vectors.md and the rules' worked examples, and
each test names its source. The last section holds, for each statement with hypotheses, a witness that meets them. -/

namespace Sys2Proof.Tests

open Machine Config

/-- What a test looks at after a step: `S`, `ERR` and the last response. -/
def seen : Result → Option (LfsrWord × Bool × Option Response)
  | .next s => some (s.S, s.ERR, s.responses.getLast?)
  | .fault _ => none
  | .refused _ => none

/-- One step of an engine that holds `S` and `ERR` and is given one word. -/
def given (S : LfsrWord) (ERR : Bool) (cmd : CommandWord) : Option (LfsrWord × Bool × Option Response) :=
  seen (step { State.reset with S := S, ERR := ERR, pending := [.command cmd] })

/-- The command a word decodes to, if it is legal. -/
def decoded (cmd : CommandWord) : Option Instr := (decode cmd).toOption

/-! ### Configuration (00_scope.md R4; 95_test_vectors.md V2) -/

theorem test_poly_terms : POLY.bits.toNat = 2 ^ 16 + 2 ^ 15 + 2 ^ 2 + 2 ^ 0 := by decide
theorem test_parameters_agree : TSIZE = 2 ^ WLEN ∧ MASK = 2 ^ ORDER - 1 ∧ WordBound ORDER WLEN := by decide

/-! ### Well-formedness: what fits and, for each check, a line that does not (30_encoding.md R37) -/

theorem test_wellFormed_accepts :
    [AsmLine.nop, .ld 0xFFFF, .shb 1, .shw 0xFF, .upd 0xFF, .tbl 0xFF, .word 0xFFFFF, .clr, .rd, .shz].all
      AsmLine.wellFormed = true := by decide
theorem test_wellFormed_refuses_ld : (AsmLine.ld 0x10000).wellFormed = false := by decide
theorem test_wellFormed_refuses_shb : (AsmLine.shb 2).wellFormed = false := by decide
theorem test_wellFormed_refuses_shw : (AsmLine.shw 0x100).wellFormed = false := by decide
theorem test_wellFormed_refuses_upd : (AsmLine.upd 0x100).wellFormed = false := by decide
theorem test_wellFormed_refuses_tbl : (AsmLine.tbl 0x100).wellFormed = false := by decide
theorem test_wellFormed_refuses_word : (AsmLine.word 0x100000).wellFormed = false := by decide
theorem test_assemble_refuses_and_never_truncates :
    assemble (.ld 0x10000) = none ∧ assemble (.shb 2) = none ∧ assemble (.word 0x60000) = some 0x60000 := by decide

/-! ### Decoding: each row's word written out bit by bit from 30_encoding.md R35, and V9's illegal words -/

theorem test_decode_nop : decoded 0b0000_0000_0000_0000_0000#20 = some .nop := by decide
theorem test_decode_ld : decoded 0b0001_0001_0010_0011_0100#20 = some (.ld 0x1234) := by decide
theorem test_decode_ld_all_bits : decoded 0b0001_1111_1111_1111_1111#20 = some (.ld 0xFFFF) := by decide
theorem test_decode_shb : decoded 0b0010_0000_0000_0000_0001#20 = some (.shb 1) := by decide
theorem test_decode_shw : decoded 0b0011_0000_0000_0101_0110#20 = some (.shw 0x56) := by decide
theorem test_decode_upd : decoded 0b0100_0000_0000_1010_0101#20 = some (.upd 0xA5) := by decide
theorem test_decode_tbl : decoded 0b0101_0000_0000_1111_1111#20 = some (.tbl 0xFF) := by decide
theorem test_decode_refuses_reserved_bits :
    [0x00001#20, 0x08000, 0x20002, 0x2FFFF, 0x30100, 0x3FF00, 0x40100, 0x50100].all (fun w => !legal w) = true := by
  decide
theorem test_decode_refuses_unused_opcodes :
    [0x60000#20, 0x7ABCD, 0x80000, 0x90000, 0xA0000, 0xB0000, 0xC0000, 0xD0000, 0xE0000, 0xF0000, 0xFFFFF].all
      (fun w => !legal w) = true := by decide

/-- R37's examples: `SHB 1` is 0x20001, `SHW 0x56` is 0x30056, `UPD 0x56` is 0x40056, `TBL 0xFF` is 0x500FF. -/
theorem test_encode_examples :
    encode .nop = 0x00000 ∧ encode (.ld 0x1234) = 0x11234 ∧ encode (.shb 1) = 0x20001 ∧
    encode (.shw 0x56) = 0x30056 ∧ encode (.upd 0x56) = 0x40056 ∧ encode (.tbl 0xFF) = 0x500FF := by decide

/-! ### The text of a command (30_encoding.md R37, R38) -/

theorem test_text_nop_with_comment :
    assembleText ['N', 'O', 'P', ' ', ';', ' ', 'r', 'e', 'a', 'd'] = some 0x00000 := by decide
theorem test_text_ld : assembleText ['L', 'D', ' ', '0', 'x', '1', '2', '3', '4'] = some 0x11234 := by decide
theorem test_text_tbl_decimal : assembleText ['T', 'B', 'L', ' ', '2', '5', '5'] = some 0x500FF := by decide
theorem test_text_word :
    assembleText ['.', 'W', 'O', 'R', 'D', ' ', '0', 'x', '6', '0', '0', '0', '0'] = some 0x60000 := by decide
theorem test_text_clr : assembleText ['C', 'L', 'R'] = some 0x10000 := by decide
theorem test_text_refuses_large_operand : assembleText ['S', 'H', 'B', ' ', '2'] = none := by decide
theorem test_text_refuses_small_letters : assembleText ['n', 'o', 'p'] = none := by decide

/-! ### The functions (95_test_vectors.md V1, V3, V4, V5, V6, V12) and the two losing readings of 90_conflicts.md -/

theorem test_shiftBit_feedback : shiftBit 16 POLY 0x8000 0 = 0x8005 ∧ shiftBit 16 POLY 0x8000 1 = 0x8004 := by decide
theorem test_shiftBit_no_feedback : shiftBit 16 POLY 0x4000 0 = 0x8000 ∧ shiftBit 16 POLY 0x7FFF 1 = 0xFFFF := by
  decide
theorem test_shiftBit_to_zero : shiftBit 16 POLY 0xC002 1 = 0 ∧ shiftBit 16 POLY 0xABCD 1 = 0xD79E := by decide
theorem test_shiftWord_traced :
    shiftWord 16 POLY 0x1234 8 0x56 = 0x343A ∧ shiftWord 16 POLY 0xFFFF 8 0xFF = 0xFDFD := by decide
theorem test_source_scenario :
    shiftWord 16 POLY 0x0000 8 0x00 = 0x0000 ∧ updateTableDriven 16 8 engine_bound TABLE 0x0000 0x00 = 0x0000 := by
  decide
theorem test_updateTableDriven_vectors :
    updateTableDriven 16 8 engine_bound TABLE 0xABCD 0xEF = 0x4E16 ∧
    updateTableDriven 16 8 engine_bound TABLE 0xBEEF 0xA5 = 0xEC21 := by decide
theorem test_table_spots :
    TABLE 0x00 = 0x0000 ∧ TABLE 0x01 = 0x8005 ∧ TABLE 0x12 = 0x006C ∧ TABLE 0xAB = 0x83F9 ∧ TABLE 0xFF = 0x0202 := by
  decide
theorem test_small_tables :
    tableEntries (buildTable 16 POLY 1 (by decide)) = [0x0000, 0x8005] ∧
    tableEntries (buildTable 16 POLY 2 (by decide)) = [0x0000, 0x8005, 0x800F, 0x000A] := by decide

/-- V7's negative control of C1: with the table in which the index itself is shifted in, the two datapaths differ. -/
theorem test_losing_reading_C1_differs :
    updateTableDriven 16 8 engine_bound (fun i => shiftWord 16 POLY (i ++ 0x00#8) 8 i) 0x0100 0x00 = 0x8004 ∧
    shiftWord 16 POLY 0x0100 8 0x00 = 0x8005 := by decide

/-- V7's negative control of C2: indexed by the input word, `s` = 0x0100 and `b` = 0x00 give 0x0000 where the reference
gives 0x8005. -/
theorem test_losing_reading_C2_differs :
    ((0x0100#16 <<< 8) ||| 0x0000#16) ^^^ TABLE 0x00 = 0x0000 ∧ shiftWord 16 POLY 0x0100 8 0x00 = 0x8005 := by decide

/-! ### One step of each command, of an illegal word, in fail-stop, and Reset (V8, V10, V11, P3) -/

theorem test_step_nop : given 0x343A false 0x00000 = some (0x343A, false, some ⟨0x343A, false⟩) := by decide
theorem test_step_nop_failStop : given 0x0031 true 0x00000 = some (0x0031, true, some ⟨0x0031, true⟩) := by decide
theorem test_step_ld : given 0x343A false 0x1FFFF = some (0xFFFF, false, some ⟨0xFFFF, false⟩) := by decide
theorem test_step_ld_failStop : given 0x0031 true 0x10000 = some (0x0031, true, some ⟨0x0031, true⟩) := by decide
theorem test_step_shb : given 0xBAC3 false 0x20001 = some (0xF582, false, some ⟨0xF582, false⟩) := by decide
theorem test_step_shw : given 0x1234 false 0x30056 = some (0x343A, false, some ⟨0x343A, false⟩) := by decide
theorem test_step_upd : given 0x343A false 0x40078 = some (0xBAC3, false, some ⟨0xBAC3, false⟩) := by decide
theorem test_step_upd_failStop : given 0x0031 true 0x40032 = some (0x0031, true, some ⟨0x0031, true⟩) := by decide
theorem test_step_tbl : given 0xF582 false 0x50034 = some (0xF582, false, some ⟨0x80BB, false⟩) := by decide
theorem test_step_tbl_failStop : given 0x0031 true 0x50001 = some (0x0031, true, some ⟨0x0031, true⟩) := by decide
theorem test_step_illegal : given 0x0031 false 0x60000 = some (0x0031, true, some ⟨0x0031, true⟩) := by decide
theorem test_step_illegal_reserved : given 0x1234 false 0x30156 = some (0x1234, true, some ⟨0x1234, true⟩) := by decide
theorem test_step_illegal_failStop : given 0x0031 true 0x60000 = some (0x0031, true, some ⟨0x0031, true⟩) := by decide

/-- V11: from a faulted state, and from the power-on state, Reset leaves 0x0000 and 0 and adds no response. -/
theorem test_step_reset :
    seen (step { State.reset with S := 0x0031, ERR := true, pending := [.reset] }) = some (0x0000, false, none) ∧
    seen (step ({ State.reset with S := 0x0031, ERR := true, pending := [.reset] } : State).powerOn)
      = some (0x0000, false, none) := by decide

/-- U4: a command before the first Reset is no step to a next state; nor is there a step once the list is exhausted. -/
theorem test_no_step_before_reset_nor_after_the_end :
    seen (step ({ State.reset with pending := [.command 0] } : State).powerOn) = none ∧
    seen (step State.reset) = none := by decide

/-! ### The host's word interface -/

theorem test_decodeTableWord :
    decodeTableWord 20 0x40031 = some (.upd 0x31) ∧ decodeTableWord 24 0x40031 = some (.upd 0x31) ∧
    decodeTableWord 20 0x60000 = none ∧ decodeTableWord 24 0x100000 = none := by decide
theorem test_withFetchWord :
    seen (step (State.reset.withFetchWord 20 0x11234)) = some (0x1234, false, some ⟨0x1234, false⟩) ∧
    seen (step (State.reset.withFetchWord 24 0x50001)) = some (0x0000, false, some ⟨0x8005, false⟩) := by decide

/-! ### Witnesses: states and operands that meet the hypotheses of the statements together -/

/-- A running engine with one word to be given. -/
def runningGiven (cmd : CommandWord) : State := { State.reset with S := 0x343A, pending := [.command cmd] }

/-- A faulted engine, as program P5 leaves it after its third row, with one letter to be given. -/
def faultedGiven (l : Letter) : State :=
  { S := 0x0031, ERR := true, phase := .ready, pending := [l], responses := [⟨0x0031, false⟩, ⟨0x0031, true⟩] }

theorem witness_LegalExactlyWhenARowMatches :
    (∃ r ∈ opcodeTable, r.accepts 0x300FF = true) ∧ decoded 0x1FFFF = some (.ld 0xFFFF) ∧ legal 0x30100 = false ∧ Running (runningGiven 0x30100) ∧
    (runningGiven 0x30100).pending = .command 0x30100 :: [] := by decide
theorem witness_PseudoInstructionsAreSynonyms :
    Running (runningGiven 0x10000) ∧ (runningGiven 0x10000).pending = .command 0x10000 :: [] ∧
    Running (runningGiven 0x00000) ∧ (runningGiven 0x00000).pending = .command 0x00000 :: [] ∧
    Running (runningGiven 0x30000) ∧ (runningGiven 0x30000).pending = .command 0x30000 :: [] := by decide
theorem witness_ShiftBitWiring :
    (0x8000#16).getLsbD 15 = true ∧ (0x7FFF#16).getLsbD 15 = false ∧ 3 ≤ 3 ∧ 14 ≤ 14 := by decide
theorem witness_ShiftWordIsRemainder : WordBound 16 4 ∧ WordBound 16 8 ∧ 4 ≤ 8 ∧ WordBound 1 1 := by decide
theorem witness_ShiftWordProperties :
    8 ≤ 9 ∧ 8 ≤ 16 ∧ (0x00FF#16).toNat < 2 ^ (16 - 8) ∧ (0x0000#16).toNat < 2 ^ (16 - 16) := by decide
theorem witness_TableShiftsOutItsIndex : (0x01#8 : Byte) ≠ 0 ∧ (0xFF#8 : Byte) ≠ 0 := by decide
theorem witness_TableUpdateWiring : (0x00FF#16).extractLsb' 8 8 = 0 ∧ (0x0100#16).extractLsb' 8 8 ≠ 0 := by decide
theorem witness_DatapathsAgree : WordBound 16 8 ∧ WordBound 16 16 ∧ WordBound 1 1 := by decide
theorem witness_BoundaryInstance : WordBound 16 16 ∧ WordBound 1 1 := by decide
theorem witness_DatapathsAreLinear : WordBound 16 1 ∧ WordBound 16 16 := by decide

/-- The premises of every command's statement: a ready engine that is not faulted, and one that is; and a word of each
operation code that uses its reserved bits. -/
theorem witness_commands :
    (runningGiven 0).phase = .ready ∧ (runningGiven 0).ERR = false ∧
    (faultedGiven .reset).phase = .ready ∧ (faultedGiven .reset).ERR = true := by decide
theorem witness_NopReadsTheState :
    (0x08000#20).extractLsb' 16 4 = 0x0#4 ∧ (0x08000#20).extractLsb' 0 16 ≠ 0 := by decide
theorem witness_LdLoadsTheState : (0x1FFFF#20).extractLsb' 16 4 = 0x1#4 := by decide
theorem witness_ShbShiftsOneBit :
    (0x20002#20).extractLsb' 16 4 = 0x2#4 ∧ (0x20002#20).extractLsb' 1 15 ≠ 0 ∧
    (0x28000#20).extractLsb' 16 4 = 0x2#4 ∧ (0x28000#20).extractLsb' 1 15 ≠ 0 ∧
    Running (runningGiven 0x20002) ∧ (runningGiven 0x20002).pending = .command 0x20002 :: [] := by decide
theorem witness_ShwShiftsOneByte :
    (0x30100#20).extractLsb' 16 4 = 0x3#4 ∧ (0x30100#20).extractLsb' 8 8 ≠ 0 := by decide
theorem witness_UpdUpdatesThroughTheTable :
    (0x40100#20).extractLsb' 16 4 = 0x4#4 ∧ (0x40100#20).extractLsb' 8 8 ≠ 0 := by decide
theorem witness_TblReadsOneEntry :
    (0x50100#20).extractLsb' 16 4 = 0x5#4 ∧ (0x50100#20).extractLsb' 8 8 ≠ 0 := by decide

/-- CommandFrame: TBL of a running engine and LD of a faulted one answer a next state. -/
theorem witness_CommandFrame :
    exec (.tbl 1) (runningGiven 0) = .next ((runningGiven 0).respond 0x8005) ∧
    exec (.ld 5) (faultedGiven .reset) = .next (faultedGiven .reset).failStop := ⟨rfl, rfl⟩
theorem witness_StepRunsTheDecodedCommand :
    (runningGiven 0x300FF).pending = .command 0x300FF :: [] ∧ decoded 0x300FF = some (.shw 0xFF) := by decide
theorem witness_StepTestsInOrder :
    (faultedGiven (.command 0x60000)).phase = .ready ∧ (faultedGiven (.command 0x60000)).ERR = true ∧
    (faultedGiven (.command 0x60000)).pending = .command 0x60000 :: [] ∧
    Running (runningGiven 0xFFFFF) ∧ legal 0xFFFFF = false ∧ Running (runningGiven 0x500FF) ∧
    decoded 0x500FF = some (.tbl 0xFF) := by decide
theorem witness_LegalCommandsNeverFault :
    Running (runningGiven 0x20001) ∧ (runningGiven 0x20001).pending = .command 0x20001 :: [] ∧ legal 0x20001 = true ∧
    given 0x343A false 0x20002 = some (0x343A, true, some ⟨0x343A, true⟩) := by decide
theorem witness_ErrIsSticky :
    (faultedGiven .reset).pending = .reset :: [] ∧
    seen (step (faultedGiven .reset)) = some (0x0000, false, some ⟨0x0031, true⟩) ∧
    seen (step (faultedGiven (.command 0x10000))) = some (0x0031, true, some ⟨0x0031, true⟩) := by decide
theorem witness_OnlyResetLeavesFailStop :
    (faultedGiven .reset).ERR = true ∧
    step (faultedGiven .reset) = .next ((faultedGiven .reset).withPending []).applyReset := ⟨rfl, rfl⟩
theorem witness_ResponseTable :
    (runningGiven 0x50001).pending = .command 0x50001 :: [] ∧
    step (runningGiven 0x50001) = .next (((runningGiven 0x50001).withPending []).respond 0x8005) := ⟨rfl, rfl⟩
theorem witness_ResetFromAnyState : (faultedGiven .reset).powerOn.pending = .reset :: [] := by decide
theorem witness_PowerOnStateIsNeverRead :
    (runningGiven 0x00000).powerOn.phase = .unreset ∧
    (runningGiven 0x00000).powerOn.pending = .command 0x00000 :: [] ∧
    (faultedGiven .reset).powerOn.phase = .unreset ∧ (faultedGiven .reset).powerOn.pending = .reset :: [] := by decide
theorem witness_StepTakesOneLetter :
    step (runningGiven 0x60000) = .next ((runningGiven 0x60000).withPending []).raiseIllegalCommand ∧
    State.reset.pending = [] := ⟨rfl, rfl⟩

/-- StepDependsOnEngineStateOnly: two states that differ in their record and in what is to come. -/
theorem witness_StepDependsOnEngineStateOnly :
    let s := runningGiven 0x00000
    let s' := { s with responses := [⟨0x0001, true⟩], pending := [.command 0x00000, .reset] }
    s ≠ s' ∧ s.S = s'.S ∧ s.ERR = s'.ERR ∧ s.phase = s'.phase ∧ s.pending = .command 0x00000 :: [] ∧
    s'.pending = .command 0x00000 :: [.reset] ∧
    seen (step s) = some (0x343A, false, some ⟨0x343A, false⟩) := by decide
theorem witness_EngineIsAlwaysReady :
    (faultedGiven (.command 0xFFFFF)).phase = .ready ∧
    (faultedGiven (.command 0xFFFFF)).pending = .command 0xFFFFF :: [] := by decide
theorem witness_PlacedWordRunsNext :
    20 ≤ 20 ∧ 20 ≤ 24 ∧ 0x500FF < 2 ^ 20 ∧ decodeTableWord 20 0x500FF = some (.tbl 0xFF) := by decide
theorem witness_EveryStateIsReachable :
    let s : State := { State.reset with pending := giveBytes [(.tableDriven, 0xFE), (.bitSerial, 0xE8)] }
    Running s ∧ s.S = 0 ∧ s.pending = giveBytes [(.tableDriven, (0xFEE8#16).extractLsb' 8 8),
      (.bitSerial, (0xFEE8#16).extractLsb' 0 8)] ∧ (0x01#8 : Byte) ≠ 0 := by decide
theorem witness_ThreeSequencesAgree :
    Running (runningGiven 0) ∧
    [(Datapath.bitSerial, 0x31#8), (.tableDriven, 0x32#8)].map Prod.snd
      = [(Datapath.tableDriven, 0x31#8), (.tableDriven, 0x32#8)].map Prod.snd := by decide
theorem witness_RunningValueIsRemainder :
    let s : State := { State.reset with pending := giveBytes [(.tableDriven, 0x31)] }
    Running s ∧ s.S = 0 ∧ s.pending = giveBytes [(.tableDriven, 0x31)] := by decide
theorem witness_EveryRunEnds : (faultedGiven .reset).phase = .ready ∧ State.reset.phase = .ready := by decide
theorem witness_LegalProgramsEndWell :
    Running (runningGiven 0x20001) ∧ (runningGiven 0x20001).pending.all Letter.isLegal = true := by decide

/-- GoodEndAfterAFaultNeedsReset: an illegal word, then Reset. -/
theorem witness_GoodEndAfterAFaultNeedsReset :
    let s : State := { State.reset with S := 0x0031, pending := [.command 0x60000] ++ [.reset] }
    core.run [Letter.command 0x60000].length s
      = .next { s with ERR := true, pending := [.reset], responses := [⟨0x0031, true⟩] } ∧
    core.run ([Letter.command 0x60000] ++ [Letter.reset]).length s
      = .next { s with S := 0x0000, pending := [], responses := [⟨0x0031, true⟩] } := ⟨rfl, rfl⟩
theorem witness_StepKeepsFaultOnRecord :
    FaultIsOnRecord (faultedGiven (.command 0x40032)) ∧
    step (faultedGiven (.command 0x40032))
      = .next ((faultedGiven (.command 0x40032)).withPending []).failStop := ⟨by decide, rfl⟩
theorem witness_StepKeepsOnlyLegalAhead :
    OnlyLegalAhead (runningGiven 0x50001) ∧
    step (runningGiven 0x50001) = .next (((runningGiven 0x50001).withPending []).respond 0x8005) := ⟨by decide, rfl⟩

end Sys2Proof.Tests
end

section
/-! PROOFS. The scope of a step (00_scope.md R7): the command the host gives is the command the engine executes. -/

namespace Sys2Proof.Machine

variable {s : State} {run : Instr → State → Result}

theorem giveCommand_unreset (cmd : CommandWord) (h : s.phase = .unreset) :
    giveCommand run cmd s = .fault .stateReadBeforeReset := by
  rw [giveCommand, whenRunning_unreset h]

theorem giveCommand_failStop (cmd : CommandWord) (h : s.phase = .ready) (e : s.ERR = true) :
    giveCommand run cmd s = .next s.failStop := by
  rw [giveCommand, whenRunning_failStop h e]

/-- The tests before decoding and those inside the command agree, so a legal word does what its command does in every
state: also before the first Reset and in fail-stop, where the word is not decoded. -/
theorem giveCommand_exec {cmd : CommandWord} {i : Instr} (d : decode cmd = .ok i) :
    giveCommand exec cmd s = exec i s := by
  cases h : s.phase with
  | unreset => rw [giveCommand_unreset cmd h, exec_unreset i h]
  | ready =>
    cases e : s.ERR with
    | true => rw [giveCommand_failStop cmd h e, exec_failStop i h e]
    | false => exact giveCommand_ok h e d

/-- Settles O25: the letter leaves the host's list, and the word then does what its command does. -/
theorem stepRunsTheDecodedCommand : Obligations.StepRunsTheDecodedCommand := by
  intro s cmd rest i hp d
  calc step s = giveCommand exec cmd (s.withPending rest) := step_command hp
    _ = exec i (s.withPending rest) := giveCommand_exec d

end Sys2Proof.Machine
end

section
/-! PROOFS. The state of the engine (10_state.md): what a command and a step do to it, each said in one equation, and
from these the frame of the commands (R11, R32), the sticky fault flag (R12), the host's list (R14) and the
determinism of a step (R17). -/

namespace Sys2Proof

open Machine Config

/-- What a command of a running engine leaves in `S` when it held `v`. -/
def Instr.nextS : Instr → LfsrWord → LfsrWord
  | .nop, v => v
  | .ld imm, _ => imm
  | .shb b, v => shiftBit 16 POLY v b
  | .shw w, v => shiftWord 16 POLY v 8 w
  | .upd w, v => updateTableDriven 16 8 engine_bound TABLE v w
  | .tbl _, v => v

/-- The `q` of the response: the table entry for TBL, else `S` as the command leaves it (30_encoding.md R32). -/
def Instr.answer : Instr → LfsrWord → LfsrWord
  | .tbl k, _ => TABLE k
  | i, v => i.nextS v

@[simp] theorem Instr.nextS_nop (v : LfsrWord) : Instr.nop.nextS v = v := rfl

@[simp] theorem Instr.nextS_tbl (k : Byte) (v : LfsrWord) : (Instr.tbl k).nextS v = v := rfl

end Sys2Proof

namespace Sys2Proof.Machine

variable {s t : State} {cmd : CommandWord} {i : Instr} {l : Letter} {rest : List Letter}

/-- What a command does in a running engine: it writes `S`, back to itself for NOP and TBL, and responds. -/
def State.execute (s : State) (i : Instr) : State := (s.writeS (i.nextS s.S)).respond (i.answer s.S)

@[simp] theorem State.execute_S : (s.execute i).S = i.nextS s.S := rfl
@[simp] theorem State.execute_ERR : (s.execute i).ERR = s.ERR := rfl
@[simp] theorem State.execute_phase : (s.execute i).phase = s.phase := rfl
@[simp] theorem State.execute_pending : (s.execute i).pending = s.pending := rfl
@[simp] theorem State.execute_responses :
    (s.execute i).responses = s.responses ++ [⟨i.answer s.S, s.ERR⟩] := rfl

/-- `State.execute` is what `exec` does in a running engine, `exec_running` with the values it leaves open. -/
theorem exec_eq_execute (i : Instr) (ready : s.phase = .ready) (e : s.ERR = false) :
    exec i s = .next (s.execute i) := by
  cases i <;> (rw [exec]; exact whenRunning_running ready e)

/-- Everything a command that answers a next state can have done. -/
theorem exec_next_cases (h : exec i s = .next t) :
    s.phase = .ready ∧ ((s.ERR = true ∧ t = s.failStop) ∨ (s.ERR = false ∧ t = s.execute i)) := by
  cases ready : s.phase with
  | unreset => rw [exec_unreset i ready] at h; cases h
  | ready =>
    refine ⟨rfl, ?_⟩
    cases e : s.ERR with
    | true => rw [exec_failStop i ready e] at h; cases h; exact .inl ⟨rfl, rfl⟩
    | false => rw [exec_eq_execute i ready e] at h; cases h; exact .inr ⟨rfl, rfl⟩

/-- Settles O24: in fail-stop the command only responds; else `S` alone changes beside the response, and NOP and TBL
write it back. -/
theorem commandFrame : Obligations.CommandFrame := by
  intro i s t h
  obtain ⟨-, ⟨-, rfl⟩ | ⟨running, rfl⟩⟩ := exec_next_cases h
  · exact ⟨rfl, rfl, rfl, ⟨s.S, rfl⟩, fun _ => rfl⟩
  · refine ⟨rfl, rfl, rfl, ⟨i.answer s.S, rfl⟩, ?_⟩
    rintro (rfl | ⟨k, rfl⟩ | faulted)
    · exact Instr.nextS_nop s.S
    · exact Instr.nextS_tbl k s.S
    · rw [running] at faulted; cases faulted

/-! ### One step, case by case -/

theorem step_failStop (hp : s.pending = .command cmd :: rest) (ready : s.phase = .ready) (e : s.ERR = true) :
    step s = .next (s.withPending rest).failStop := by
  rw [step_command hp]
  exact giveCommand_failStop cmd ready e

theorem step_illegal (hp : s.pending = .command cmd :: rest) (ready : s.phase = .ready) (e : s.ERR = false)
    (illegal : legal cmd = false) : step s = .next (s.withPending rest).raiseIllegalCommand := by
  obtain ⟨r, d⟩ := illegal_iff.1 illegal
  rw [step_command hp]
  exact giveCommand_error ready e d

theorem step_legal (hp : s.pending = .command cmd :: rest) (ready : s.phase = .ready) (e : s.ERR = false)
    (d : decode cmd = .ok i) : step s = .next ((s.withPending rest).execute i) := by
  rw [step_command hp, giveCommand_exec d]
  exact exec_eq_execute i ready e

/-- `step_next_cases` for a known letter and with the next state of a legal word written out. -/
theorem step_next_of_letter (hp : s.pending = l :: rest) (h : step s = .next t) :
    (l = .reset ∧ t = (s.withPending rest).applyReset) ∨
    (∃ cmd, l = .command cmd ∧ s.phase = .ready ∧
      ((s.ERR = true ∧ t = (s.withPending rest).failStop) ∨
       (s.ERR = false ∧ legal cmd = false ∧ t = (s.withPending rest).raiseIllegalCommand) ∨
       (s.ERR = false ∧ ∃ i, decode cmd = .ok i ∧ t = (s.withPending rest).execute i))) := by
  obtain ⟨l', rest', hp', effect⟩ := step_next_cases h
  obtain ⟨rfl, rfl⟩ : l = l' ∧ rest = rest' := List.cons.inj (hp.symm.trans hp')
  obtain reset | ⟨cmd, rfl, ready, faulted | ⟨e, ⟨illegal, ht⟩ | ⟨i, d, hx⟩⟩⟩ := effect
  · exact .inl reset
  · exact .inr ⟨cmd, rfl, ready, .inl faulted⟩
  · exact .inr ⟨cmd, rfl, ready, .inr (.inl ⟨e, illegal, ht⟩)⟩
  · rw [exec_eq_execute (s := s.withPending rest) i ready e] at hx
    cases hx
    exact .inr ⟨cmd, rfl, ready, .inr (.inr ⟨e, i, d, rfl⟩)⟩

/-- A step leaves the host the letters after the one it takes. -/
theorem step_pending (hp : s.pending = l :: rest) (h : step s = .next t) : t.pending = rest := by
  obtain ⟨-, rfl⟩ | ⟨cmd, -, -, ⟨-, rfl⟩ | ⟨-, -, rfl⟩ | ⟨-, i, -, rfl⟩⟩ := step_next_of_letter hp h <;> rfl

/-- While the host has a letter to give, no step is refused. -/
theorem step_ne_refused (hp : s.pending = l :: rest) (r : Refusal) : step s ≠ .refused r := by
  cases l with
  | reset => rw [step_reset hp]; nofun
  | command cmd =>
    cases ready : s.phase with
    | unreset => rw [step_command hp, giveCommand_unreset (s := s.withPending rest) cmd ready]; nofun
    | ready =>
      cases e : s.ERR with
      | true => rw [step_failStop hp ready e]; nofun
      | false =>
        cases d : decode cmd with
        | error reason => rw [step_illegal hp ready e (illegal_iff.2 ⟨reason, d⟩)]; nofun
        | ok i => rw [step_legal hp ready e d]; nofun

/-- Settles O28: of the four things a step can do, Reset clears `ERR`, an illegal word sets it, and fail-stop and
execution leave it as it is. -/
theorem errIsSticky : Obligations.ErrIsSticky := by
  intro s t l rest hp h
  obtain ⟨rfl, rfl⟩ | ⟨cmd, rfl, -, effect⟩ := step_next_of_letter hp h
  · exact ⟨fun _ => rfl, nofun⟩
  · refine ⟨nofun, ?_⟩
    rintro _ ⟨⟩
    obtain ⟨e, rfl⟩ | ⟨e, illegal, rfl⟩ | ⟨e, i, d, rfl⟩ := effect
    · exact ⟨by simp [e], ⟨s.S, rfl⟩, fun _ => rfl⟩
    · exact ⟨by simp [illegal], ⟨s.S, rfl⟩, fun _ => rfl⟩
    · exact ⟨by simp [legal_of_decode d], ⟨i.answer s.S, rfl⟩, by simp [e]⟩

/-- Settles O33: a step needs a letter to take, and with one it is never refused. -/
theorem stepTakesOneLetter : Obligations.StepTakesOneLetter := by
  refine ⟨fun s t h => ?_, fun s => ⟨step_endOfRun, fun refused => ?_⟩⟩
  · obtain ⟨l, rest, hp, -⟩ := step_next_cases h
    exact ⟨l, by rw [hp, step_pending hp h]⟩
  · cases hp : s.pending with
    | nil => rfl
    | cons l rest => exact absurd refused (step_ne_refused hp .endOfRun)

/-- Settles O34: the premises of each case of a step, and the values it writes and responds, speak of `S`, `ERR`, the
phase and the letter alone, so the same case applies to the other state. -/
theorem stepDependsOnEngineStateOnly : Obligations.StepDependsOnEngineStateOnly := by
  intro s s' t l rest rest' hS hERR hphase hp hp' h
  obtain ⟨rfl, rfl⟩ | ⟨cmd, rfl, ready, effect⟩ := step_next_of_letter hp h
  · exact ⟨_, [], step_reset hp', by simp⟩
  · rw [hphase] at ready
    rw [hERR] at effect
    obtain ⟨e, rfl⟩ | ⟨e, illegal, rfl⟩ | ⟨e, i, d, rfl⟩ := effect
    · exact ⟨_, [⟨s.S, s.ERR⟩], step_failStop hp' ready e, by simp [hS, hERR, hphase]⟩
    · exact ⟨_, [⟨s.S, true⟩], step_illegal hp' ready e illegal, by simp [hS, hphase]⟩
    · exact ⟨_, [⟨i.answer s.S, s.ERR⟩], step_legal hp' ready e d, by simp [hS, hERR, hphase]⟩

end Sys2Proof.Machine
end

section
/-! PROOFS. The one read of the table (20_memory.md R25): a table update is an XOR with the entry at the top of the
state, and of the table it depends on nothing else. -/

namespace Sys2Proof.Machine

/-- The table update with its three parts apart: the state shifted up and filled with the word, XORed with the entry
at the top bits of the old state (41_table_driven_update.md R53). -/
theorem updateTableDriven_eq_xor {order n : Nat} (bound : WordBound order n) (table : Table order n)
    (s : BitVec order) (w : BitVec n) :
    updateTableDriven order n bound table s w =
      (s <<< n ||| w.setWidth order) ^^^ table (s.extractLsb' (order - n) n) := by
  rw [updateTableDriven, BitVec.setWidth_ushiftRight_eq_extractLsb]
  ext k hk
  simp

/-- The XOR loses nothing of the entry, so two tables update a state alike exactly when they agree at its top bits. -/
theorem updateTableDriven_eq_iff {order n : Nat} (bound : WordBound order n) (table table' : Table order n)
    (s : BitVec order) (w : BitVec n) :
    updateTableDriven order n bound table s w = updateTableDriven order n bound table' s w ↔
      table (s.extractLsb' (order - n) n) = table' (s.extractLsb' (order - n) n) := by
  rw [updateTableDriven_eq_xor, updateTableDriven_eq_xor, BitVec.xor_right_inj]

/-- Settles O13: the top eight of the sixteen bits are `S[15:8]`. -/
theorem updateReadsOneEntry : Obligations.UpdateReadsOneEntry :=
  fun table table' s w => (updateTableDriven_eq_iff engine_bound table table' s w).symm

end Sys2Proof.Machine
end

section
/-! PROOFS. Decoding and encoding undo each other (30_encoding.md R30, R31, R33, R34), so that `decode` need not be
unfolded again: a word names a command exactly when it is that command's word. -/

namespace Sys2Proof

open Machine

variable {cmd : CommandWord} {i : Instr}

@[simp] theorem opField_append (op : BitVec 4) (arg : BitVec 16) : opField (op ++ arg) = op :=
  BitVec.extractLsb'_append_eq_left

@[simp] theorem argField_append (op : BitVec 4) (arg : BitVec 16) : argField (op ++ arg) = arg :=
  BitVec.extractLsb'_append_eq_right

/-- A word is its two fields. -/
theorem opField_append_argField (cmd : CommandWord) : opField cmd ++ argField cmd = cmd :=
  (BitVec.extractLsb'_append_extractLsb'_eq_extractLsb' rfl).trans BitVec.extractLsb'_eq_self

@[simp] theorem bitOperand_setWidth (b : Bit) : bitOperand (b.setWidth 16) = b := by
  rw [bitOperand, ← BitVec.setWidth_eq_extractLsb' (by decide), BitVec.setWidth_setWidth_of_le _ (by decide),
    BitVec.setWidth_eq]

@[simp] theorem byteOperand_setWidth (w : Byte) : byteOperand (w.setWidth 16) = w := by
  rw [byteOperand, ← BitVec.setWidth_eq_extractLsb' (by decide), BitVec.setWidth_setWidth_of_le _ (by decide),
    BitVec.setWidth_eq]

@[simp] theorem reservedOfBit_setWidth (b : Bit) : reservedOfBit (b.setWidth 16) = 0 := by
  ext k hk; simp [reservedOfBit]

@[simp] theorem reservedOfByte_setWidth (w : Byte) : reservedOfByte (w.setWidth 16) = 0 := by
  ext k hk; simp [reservedOfByte]

/-- An argument whose bits from `k` on are zero is its low `k` bits (30_encoding.md R34). -/
theorem setWidth_low_of_high_zero {arg : BitVec 16} {k : Nat} (h : arg.extractLsb' k (16 - k) = 0) :
    (arg.extractLsb' 0 k).setWidth 16 = arg := by
  refine BitVec.eq_of_getLsbD_eq fun j hj => ?_
  by_cases low : j < k
  · simp [low, hj]
  · have zero : (arg.extractLsb' k (16 - k)).getLsbD (j - k) = false := by simp [h]
    have above : arg.getLsbD j = false := by
      rwa [BitVec.getLsbD_extractLsb', Nat.add_sub_cancel' (by omega), decide_eq_true (by omega), Bool.true_and]
        at zero
    simpa [low] using above

theorem setWidth_bitOperand {arg : BitVec 16} (h : reservedOfBit arg = 0) : (bitOperand arg).setWidth 16 = arg :=
  setWidth_low_of_high_zero h

theorem setWidth_byteOperand {arg : BitVec 16} (h : reservedOfByte arg = 0) : (byteOperand arg).setWidth 16 = arg :=
  setWidth_low_of_high_zero h

theorem decode_encode (i : Instr) : decode (encode i) = .ok i := by
  cases i <;> rw [encode, decode, opField_append, argField_append]
  case nop => rfl
  case ld imm => rfl
  case shb b => simp
  case shw w => simp
  case upd w => simp
  case tbl k => simp

/-- No bit of a legal word is ignored: it is the word of the command it decodes to. -/
theorem encode_of_decode (h : decode cmd = .ok i) : encode i = cmd := by
  obtain ⟨op, arg, rfl⟩ : ∃ op arg, cmd = op ++ arg := ⟨_, _, (opField_append_argField cmd).symm⟩
  rw [decode, opField_append, argField_append] at h
  split at h
  case h_1 =>
    split at h
    next reserved => cases h; rw [reservedOfNop] at reserved; rw [encode, reserved]; rfl
    next => cases h
  case h_2 => cases h; rfl
  case h_7 => cases h
  all_goals
    split at h
    next reserved => cases h; simp only [encode, setWidth_bitOperand, setWidth_byteOperand, reserved]
    next => cases h

theorem decode_eq_ok_iff : decode cmd = .ok i ↔ encode i = cmd :=
  ⟨encode_of_decode, fun h => h ▸ decode_encode i⟩

theorem legal_iff_encode : legal cmd = true ↔ ∃ i, encode i = cmd := by
  simp only [legal_iff, decode_eq_ok_iff]

/-- The lemmas of the six constructors in one. -/
theorem encoding_statement (i : Instr) : Laws.Encoding.Statement i := by
  cases i with
  | nop => exact Laws.Encoding.nop
  | ld imm => exact Laws.Encoding.ld imm
  | shb b => exact Laws.Encoding.shb b
  | shw w => exact Laws.Encoding.shw w
  | upd w => exact Laws.Encoding.upd w
  | tbl k => exact Laws.Encoding.tbl k

/-- Settles O1: the fields of a command's word are its operation code and its operand, the reserved bits zero. -/
theorem decodeOfEncode : Obligations.DecodeOfEncode :=
  fun i => ⟨(encoding_statement i).1, decode_encode i⟩

/-- Settles O3: a legal word is decoded to the command whose word it is; the illegal ones are refused one by one. -/
theorem specWordsDecode : Obligations.SpecWordsDecode := by
  simp only [Obligations.SpecWordsDecode, decode_eq_ok_iff, List.forall_mem_cons, List.not_mem_nil, false_implies,
    implies_true]
  decide

end Sys2Proof
end

section
/-! PROOFS. The match and mask table of 30_encoding.md R35: each row accepts a range of words, the ranges do not
overlap, and the words in them are the legal ones. -/

namespace Sys2Proof

open Machine

variable {r r₁ r₂ : OpcodeRow} {cmd : CommandWord}

/-- The numbers of the words a row accepts (tied to `accepts` by `accepts_iff_mem_words`). -/
def OpcodeRow.words (r : OpcodeRow) : Finset Nat :=
  Finset.Ico r.matchBits.toNat (r.matchBits.toNat + (2 ^ 20 - r.mask.toNat))

/-- A mask drops some low bits of the word, and they are zero in the match. -/
theorem mask_eq_shiftLeft : ∀ r ∈ opcodeTable, ∃ k < 20, r.mask = BitVec.allOnes 20 <<< k ∧
    2 ^ 20 - r.mask.toNat = 2 ^ k ∧ r.matchBits.toNat = r.matchBits.toNat / 2 ^ k * 2 ^ k := by
  decide

theorem words_lt : ∀ r ∈ opcodeTable, r.matchBits.toNat + (2 ^ 20 - r.mask.toNat) ≤ 2 ^ 20 := by
  decide

theorem words_apart : ∀ r₁ ∈ opcodeTable, ∀ r₂ ∈ opcodeTable, r₁ = r₂ ∨
    r₁.matchBits.toNat + (2 ^ 20 - r₁.mask.toNat) ≤ r₂.matchBits.toNat ∨
    r₂.matchBits.toNat + (2 ^ 20 - r₂.mask.toNat) ≤ r₁.matchBits.toNat := by
  decide

/-- A row accepts one range of words: those with its match above the bits its mask drops. -/
theorem accepts_iff_mem_words (hr : r ∈ opcodeTable) : r.accepts cmd = true ↔ cmd.toNat ∈ r.words := by
  obtain ⟨k, -, mask, size, low⟩ := mask_eq_shiftLeft r hr
  have masked : (cmd &&& r.mask).toNat = cmd.toNat / 2 ^ k * 2 ^ k := by
    rw [mask, ← BitVec.shiftLeft_ushiftRight, BitVec.toNat_shiftLeft, BitVec.toNat_ushiftRight,
      Nat.shiftRight_eq_div_pow, Nat.shiftLeft_eq, Nat.mod_eq_of_lt]
    exact (Nat.div_mul_le_self _ _).trans_lt cmd.isLt
  rw [Laws.Encoding.accepts_iff, ← BitVec.toNat_inj, masked, OpcodeRow.words, size, Finset.mem_Ico]
  have pos : 0 < 2 ^ k := Nat.two_pow_pos k
  generalize r.matchBits.toNat / 2 ^ k = c at low
  rw [low, Nat.mul_left_inj pos.ne', Nat.div_eq_iff pos]
  omega

/-- No word is in the range of two rows. -/
theorem row_unique (h₁ : r₁ ∈ opcodeTable) (h₂ : r₂ ∈ opcodeTable) {n : Nat} (m₁ : n ∈ r₁.words)
    (m₂ : n ∈ r₂.words) : r₁ = r₂ := by
  rw [OpcodeRow.words, Finset.mem_Ico] at m₁ m₂
  obtain same | below | above := words_apart r₁ h₁ r₂ h₂
  · exact same
  · omega
  · omega

theorem lt_of_mem_words (hr : r ∈ opcodeTable) {n : Nat} (hn : n ∈ r.words) : n < 2 ^ 20 :=
  (Finset.mem_Ico.1 hn).2.trans_le (words_lt r hr)

/-- A word is put together from the two parts of its number. -/
theorem append_eq_of_toNat {op : BitVec 4} {arg : BitVec 16} (h : op.toNat * 2 ^ 16 + arg.toNat = cmd.toNat) :
    op ++ arg = cmd := by
  rw [← BitVec.toNat_inj, BitVec.toNat_append, ← Nat.shiftLeft_add_eq_or_of_lt arg.isLt, Nat.shiftLeft_eq, h]

/-- Every word of a row is the word of a command, with the bits the row's mask drops as its operand. -/
theorem encode_of_mem_words (hr : r ∈ opcodeTable) (h : cmd.toNat ∈ r.words) : ∃ i, encode i = cmd := by
  rw [OpcodeRow.words, Finset.mem_Ico] at h
  simp only [opcodeTable, List.mem_cons, List.not_mem_nil, or_false] at hr
  obtain rfl | rfl | rfl | rfl | rfl | rfl := hr
  · exact ⟨.nop, append_eq_of_toNat (by simp at h ⊢; omega)⟩
  · exact ⟨.ld (cmd.setWidth 16), append_eq_of_toNat (by simp at h ⊢; omega)⟩
  · exact ⟨.shb (cmd.setWidth 1), append_eq_of_toNat (by simp at h ⊢; omega)⟩
  · exact ⟨.shw (cmd.setWidth 8), append_eq_of_toNat (by simp at h ⊢; omega)⟩
  · exact ⟨.upd (cmd.setWidth 8), append_eq_of_toNat (by simp at h ⊢; omega)⟩
  · exact ⟨.tbl (cmd.setWidth 8), append_eq_of_toNat (by simp at h ⊢; omega)⟩

/-- The commands' words are exactly the words some row accepts. -/
theorem legal_iff_accepts : legal cmd = true ↔ ∃ r ∈ opcodeTable, r.accepts cmd = true := by
  constructor
  · intro h
    obtain ⟨i, rfl⟩ := legal_iff_encode.1 h
    obtain ⟨-, row, -, accepted⟩ := encoding_statement i
    exact ⟨i.row, row, accepted⟩
  · rintro ⟨r, hr, accepted⟩
    exact legal_iff_encode.2 (encode_of_mem_words hr ((accepts_iff_mem_words hr).1 accepted))

/-- The numbers of the legal words are those of the six rows. -/
theorem legal_numbers : ((Finset.range (2 ^ 20)).filter fun n => legal (BitVec.ofNat 20 n) = true) =
    opcodeTable.toFinset.biUnion OpcodeRow.words := by
  ext n
  simp only [Finset.mem_filter, Finset.mem_range, Finset.mem_biUnion, List.mem_toFinset, legal_iff_accepts]
  constructor
  · rintro ⟨hn, r, hr, accepted⟩
    rw [accepts_iff_mem_words hr, BitVec.toNat_ofNat, Nat.mod_eq_of_lt hn] at accepted
    exact ⟨r, hr, accepted⟩
  · rintro ⟨r, hr, mem⟩
    have hn := lt_of_mem_words hr mem
    refine ⟨hn, r, hr, ?_⟩
    rwa [accepts_iff_mem_words hr, BitVec.toNat_ofNat, Nat.mod_eq_of_lt hn]

/-- The last column of the table of 30_encoding.md R35, summed. -/
theorem card_legal_numbers :
    ((Finset.range (2 ^ 20)).filter fun n => legal (BitVec.ofNat 20 n) = true).card = 66307 := by
  rw [legal_numbers, Finset.card_biUnion]
  · simp only [OpcodeRow.words, Nat.card_Ico, Nat.add_sub_cancel_left]
    decide
  · intro r₁ h₁ r₂ h₂ ne
    refine Finset.disjoint_left.2 fun n m₁ m₂ => ne ?_
    exact row_unique (List.mem_toFinset.1 h₁) (List.mem_toFinset.1 h₂) m₁ m₂

/-- Settles O2: the rows accept disjoint ranges of words, which are the words of the commands. -/
theorem legalExactlyWhenARowMatches : Obligations.LegalExactlyWhenARowMatches := by
  refine ⟨fun cmd => legal_iff_accepts, fun cmd r₁ h₁ r₂ h₂ a₁ a₂ => ?_, fun cmd i d => ?_, card_legal_numbers,
    fun cmd rest s illegal ⟨ready, e⟩ hp => step_illegal hp ready e illegal⟩
  · exact row_unique h₁ h₂ ((accepts_iff_mem_words h₁).1 a₁) ((accepts_iff_mem_words h₂).1 a₂)
  · obtain rfl := encode_of_decode d
    obtain ⟨-, row, -, accepted⟩ := encoding_statement i
    exact ⟨row, accepted, rfl⟩

end Sys2Proof
end

section
/-! PROOFS. The assembler (30_encoding.md R37): one check decides whether a line has a word. -/

namespace Sys2Proof

/-- A line whose check is `fits` has its word where `fits` holds and none elsewhere. -/
theorem assemble_eq_ite {l : AsmLine} {fits : Prop} [Decidable fits] (check : l.wellFormed = decide fits) :
    assemble l = if fits then some l.rawWord else none := by
  by_cases h : fits
  · rw [if_pos h, assemble_of_wellFormed (check.trans (decide_eq_true h))]
  · rw [if_neg h, assemble_refuses (check.trans (decide_eq_false h))]

/-- Settles O4: the checks of the six lines are the bounds of R37. -/
theorem assemblerRefusesWhatDoesNotFit : Obligations.AssemblerRefusesWhatDoesNotFit :=
  fun _ => ⟨assemble_eq_ite rfl, assemble_eq_ite rfl, assemble_eq_ite rfl, assemble_eq_ite rfl, assemble_eq_ite rfl,
    assemble_eq_ite rfl⟩

end Sys2Proof
end

section
/-! PROOFS. The polynomial reading of a bit vector (00_scope.md section 6): `shiftBit` and the loop of `shiftWord` take
the remainder by the generator (43_equivalence_laws.md R66, R67). -/

namespace Sys2Proof

open Machine Config Polynomial

section Reading
variable {n m : Nat}

theorem toPoly_coeff (v : BitVec n) (k : Nat) : (toPoly v).coeff k = if v.getLsbD k then 1 else 0 := by
  have term (i : Nat) : (if v.getLsbD i then (X : (ZMod 2)[X]) ^ i else 0).coeff k =
      if k = i then if v.getLsbD i then 1 else 0 else 0 := by
    split <;> simp [coeff_X_pow]
  simp only [toPoly, finsetSum_coeff, term, Finset.sum_ite_eq, Finset.mem_range]
  split
  · rfl
  · rw [v.getLsbD_of_ge k (by omega), if_neg Bool.false_ne_true]

theorem toPoly_coeff_of_ge (v : BitVec n) {k : Nat} (hk : n ≤ k) : (toPoly v).coeff k = 0 := by
  rw [toPoly_coeff, v.getLsbD_of_ge k hk, if_neg Bool.false_ne_true]

theorem toPoly_degree_lt (v : BitVec n) : (toPoly v).degree < n :=
  (degree_lt_iff_coeff_zero _ _).2 fun _ => toPoly_coeff_of_ge v

@[simp] theorem toPoly_zero : toPoly (0 : BitVec n) = 0 := by
  ext k; simp [toPoly_coeff]

/-- XOR of bits is addition over GF(2). -/
theorem toPoly_xor (u v : BitVec n) : toPoly (u ^^^ v) = toPoly u + toPoly v := by
  ext k
  rw [coeff_add, toPoly_coeff, toPoly_coeff, toPoly_coeff, BitVec.getLsbD_xor]
  cases u.getLsbD k <;> cases v.getLsbD k <;> decide

/-- A change of width that drops no 1 bit keeps the polynomial. -/
theorem toPoly_setWidth (v : BitVec n) (h : ∀ k, m ≤ k → v.getLsbD k = false) :
    toPoly (v.setWidth m) = toPoly v := by
  ext k
  rw [toPoly_coeff, toPoly_coeff, BitVec.getLsbD_setWidth]
  by_cases hk : k < m
  · simp [hk]
  · simp [hk, h k (by omega)]

end Reading

section Generator
variable {order : Nat} (p : Generator order)

theorem toPoly_generator_coeff_top : (toPoly p.bits).coeff order = 1 := by
  rw [toPoly_coeff, p.top, if_pos rfl]

theorem toPoly_generator_degree_le : (toPoly p.bits).degree ≤ order :=
  (degree_le_iff_coeff_zero _ _).2 fun _ hk => toPoly_coeff_of_ge p.bits (Nat.cast_lt.1 hk)

theorem toPoly_generator_monic : (toPoly p.bits).Monic :=
  monic_of_degree_le order (toPoly_generator_degree_le p) (toPoly_generator_coeff_top p)

theorem toPoly_generator_degree : (toPoly p.bits).degree = order :=
  degree_eq_of_le_of_coeff_ne_zero (toPoly_generator_degree_le p) (by simp [toPoly_generator_coeff_top])

variable {p}

/-- A state is its own remainder. -/
theorem toPoly_mod (s : BitVec order) : toPoly s %ₘ toPoly p.bits = toPoly s := by
  rw [modByMonic_eq_self_iff (toPoly_generator_monic p), toPoly_generator_degree]
  exact toPoly_degree_lt s

/-- A vector without the generator's top bit is its own remainder. -/
theorem toPoly_mod_of_top_false {t : BitVec (order + 1)} (h : t.getLsbD order = false) :
    toPoly t %ₘ toPoly p.bits = toPoly (t.setWidth order) := by
  have read : toPoly (t.setWidth order) = toPoly t := toPoly_setWidth t fun k hk => by
    obtain rfl | above := hk.eq_or_lt
    · exact h
    · exact t.getLsbD_of_ge k above
  rw [← read, toPoly_mod]

/-- The XOR with the whole generator takes its top bit away and keeps the remainder. -/
theorem toPoly_mod_of_top_true {t : BitVec (order + 1)} (h : t.getLsbD order = true) :
    toPoly t %ₘ toPoly p.bits = toPoly ((t ^^^ p.bits).setWidth order) := by
  have cleared : (t ^^^ p.bits).getLsbD order = false := by rw [BitVec.getLsbD_xor, h, p.top]; rfl
  rw [← toPoly_mod_of_top_false (p := p) cleared, toPoly_xor, add_modByMonic,
    modByMonic_self (toPoly_generator_monic p), add_zero]

/-- The bits of `t` in `shiftBit`, before the reduction (40_bit_serial_shift.md R40). -/
theorem toPoly_shiftIn (s : BitVec order) (b : Bit) :
    toPoly ((s.setWidth (order + 1) <<< 1) ||| b.setWidth (order + 1)) = toPoly s * X + toPoly b := by
  ext k
  rw [coeff_add, toPoly_coeff, toPoly_coeff]
  cases k with
  | zero => simp
  | succ k =>
    rw [coeff_mul_X, toPoly_coeff, b.getLsbD_of_ge (k + 1) (by omega)]
    by_cases hk : k < order
    · simp [hk]
    · simp [hk, s.getLsbD_of_ge k (by omega)]

/-- R66: a shift by one bit is multiplication by `x`, the bit added, modulo the generator. -/
theorem toPoly_shiftBit (s : BitVec order) (b : Bit) :
    toPoly (shiftBit order p s b) = (toPoly s * X + toPoly b) %ₘ toPoly p.bits := by
  rw [← toPoly_shiftIn, shiftBit]
  split
  next top => rw [toPoly_mod_of_top_true top]
  next top => rw [toPoly_mod_of_top_false (Bool.eq_false_iff.2 top)]

end Generator

section Loop
variable {order m : Nat} {p : Generator order}

/-- A factor may be reduced before it is multiplied and added to. -/
theorem mod_mul_add_mod {q : (ZMod 2)[X]} (hq : q.Monic) (f g h : (ZMod 2)[X]) :
    ((f %ₘ q) * g + h) %ₘ q = (f * g + h) %ₘ q := by
  have twice : f %ₘ q %ₘ q = f %ₘ q := (modByMonic_eq_self_iff hq).2 (degree_modByMonic_lt f hq)
  rw [add_modByMonic, mul_modByMonic, twice, ← mul_modByMonic, ← add_modByMonic]

/-- The low bits of a word are its bit `k` above the bits below it. -/
theorem toPoly_low_succ (word : BitVec m) (k : Nat) :
    toPoly (word.setWidth (k + 1)) = toPoly (bitAt word k) * X ^ k + toPoly (word.setWidth k) := by
  ext j
  rw [coeff_add, coeff_mul_X_pow', toPoly_coeff, toPoly_coeff, toPoly_coeff]
  simp only [BitVec.getLsbD_setWidth, bitAt, BitVec.getLsbD_extractLsb']
  obtain below | rfl | above := lt_trichotomy j k
  · simp [below, Nat.lt_succ_of_lt below, below.not_ge]
  · simp
  · simp [above.not_gt, above.le, show ¬ j < k + 1 by omega, show ¬ j - k < 1 by omega]

/-- The loop of `shiftWord`, over the low `k` bits of a word. -/
theorem toPoly_shiftLow (word : BitVec m) (k : Nat) (s : BitVec order) :
    toPoly (shiftLow order p word k s) =
      (toPoly s * X ^ k + toPoly (word.setWidth k)) %ₘ toPoly p.bits := by
  induction k generalizing s with
  | zero =>
    have empty : word.setWidth 0 = 0 := BitVec.of_length_zero
    rw [shiftLow_zero, empty, toPoly_zero, pow_zero, mul_one, add_zero, toPoly_mod]
  | succ k ih =>
    rw [shiftLow_succ, ih, toPoly_shiftBit, mod_mul_add_mod (toPoly_generator_monic p), toPoly_low_succ]
    congr 1
    ring

/-- R67: a word shifted in is multiplication by `x^n`, the word added, modulo the generator. -/
theorem toPoly_shiftWord (s : BitVec order) (n : Nat) (w : BitVec n) :
    toPoly (shiftWord order p s n w) = (toPoly s * X ^ n + toPoly w) %ₘ toPoly p.bits := by
  rw [shiftWord_eq_shiftLow, toPoly_shiftLow, BitVec.setWidth_eq]

end Loop

end Sys2Proof
end

section
/-! PROOFS. What a step of a running engine does with the word of a command, and from it the pseudo-instructions
(30_encoding.md R38) and the table of responses (R32). -/

namespace Sys2Proof.Machine

variable {s : State} {i : Instr} {rest : List Letter}

/-- A running engine given the word of a command executes it, with every field of the next state written out. -/
theorem step_encode (running : Running s) (hp : s.pending = .command (encode i) :: rest) :
    step s = .next { s with
      S := i.nextS s.S, pending := rest, responses := s.responses ++ [⟨i.answer s.S, false⟩] } := by
  obtain ⟨ready, e⟩ := running
  rw [step_legal hp ready e (decode_encode i), ← e]
  rfl

theorem step_clr (running : Running s) (hp : s.pending = .command 0x10000 :: rest) :
    step s = .next { s with S := 0x0000, pending := rest, responses := s.responses ++ [⟨0x0000, false⟩] } :=
  step_encode (i := .ld 0x0000) running hp

theorem step_rd (running : Running s) (hp : s.pending = .command 0x00000 :: rest) :
    step s = .next { s with pending := rest, responses := s.responses ++ [⟨s.S, false⟩] } :=
  step_encode (i := .nop) running hp

theorem step_shz (running : Running s) (hp : s.pending = .command 0x30000 :: rest) :
    step s = .next { s with
      S := shiftWord 16 Config.POLY s.S 8 0x00, pending := rest,
      responses := s.responses ++ [⟨shiftWord 16 Config.POLY s.S 8 0x00, false⟩] } :=
  step_encode (i := .shw 0x00) running hp

/-- Settles O5: each name is a line with the word of the command it stands for, and shifting in the zero word only
multiplies. -/
theorem pseudoInstructionsAreSynonyms : Obligations.PseudoInstructionsAreSynonyms := by
  refine ⟨⟨rfl, rfl⟩, ⟨rfl, rfl⟩, ⟨rfl, rfl⟩, by decide, fun s rest => step_clr, fun s rest => step_rd, ?_⟩
  intro s rest running hp
  refine ⟨shiftWord 16 Config.POLY s.S 8 0x00, ?_, step_shz running hp⟩
  rw [toPoly_shiftWord, toPoly_zero, add_zero, P]

/-- Settles O30: in fail-stop and for an illegal word the step responds `S`; a legal word's response is
`Instr.answer`, read off command by command. -/
theorem responseTable : Obligations.ResponseTable := by
  intro s t cmd rest hp h
  obtain ⟨⟨⟩, -⟩ | ⟨_, ⟨⟩, -, effect⟩ := step_next_of_letter hp h
  obtain ⟨e, rfl⟩ | ⟨e, illegal, rfl⟩ | ⟨e, i, d, rfl⟩ := effect
  · exact ⟨s.S, by simp, fun _ => ⟨rfl, rfl, e⟩, by simp [e]⟩
  · obtain ⟨r, d⟩ := illegal_iff.1 illegal
    refine ⟨s.S, by simp, by simp [e], fun _ => ?_⟩
    rw [d]
    exact ⟨rfl, rfl, rfl⟩
  · refine ⟨i.answer s.S, by simp, by simp [e], fun _ => ?_⟩
    rw [d]
    cases i with
    | nop => exact ⟨rfl, rfl, e⟩
    | ld imm => exact ⟨rfl, rfl, e⟩
    | shb b => exact ⟨rfl, e⟩
    | shw w => exact ⟨rfl, e⟩
    | upd w => exact ⟨rfl, e⟩
    | tbl k => exact ⟨rfl, rfl, e⟩

end Sys2Proof.Machine
end

section
/-! PROOFS. `shiftBit` at the engine's constants (40_bit_serial_shift.md R41): the shift, with the polynomial XORed in
when a 1 leaves the top. -/

namespace Sys2Proof.Machine

open Config

/-- The two forms of `shiftBit` in one: the XOR is with the polynomial without its top bit, or with nothing. -/
theorem shiftBit_eq_xor {order : Nat} (p : Generator order) (s : BitVec order) (b : Bit) :
    shiftBit order p s b =
      (s <<< 1 ||| b.setWidth order) ^^^ (if s.getLsbD (order - 1) then p.bits.setWidth order else 0) := by
  refine BitVec.eq_of_getLsbD_eq fun k hk => ?_
  have entering : (s <<< 1 ||| b.setWidth order).getLsbD k = if k = 0 then b.getLsbD 0 else s.getLsbD (k - 1) := by
    cases k with
    | zero => simp [hk]
    | succ k => simp [hk, BitVec.getLsbD_eq_getElem (show k < order by omega)]
  rw [shiftBit_getLsbD s b k hk, BitVec.getLsbD_xor, entering]
  cases s.getLsbD (order - 1) <;> simp [hk]

/-- The XOR gates of the wiring stand at bits 0, 2 and 15 (40_bit_serial_shift.md R41). -/
theorem POLY_getLsbD : ∀ k < 16, POLY.bits.getLsbD k = decide (k = 0 ∨ k = 2 ∨ k = 15) := by
  decide

/-- One bit of the wiring: the bit that moves there, with the feedback bit XORed in where there is a gate. -/
theorem engine_shiftBit_getLsbD (s : LfsrWord) (b : Bit) {k : Nat} (hk : k < 16) :
    (shiftBit 16 POLY s b).getLsbD k = ((if k = 0 then b.getLsbD 0 else s.getLsbD (k - 1)) ^^
      (s.getLsbD 15 && decide (k = 0 ∨ k = 2 ∨ k = 15))) := by
  rw [shiftBit_getLsbD s b k hk, POLY_getLsbD k hk]

/-- The feedback is bit 15 of the old state whatever bit enters. -/
theorem feedback_eq (s : LfsrWord) (b : Bit) :
    ((s.setWidth 17 <<< 1) ||| b.setWidth 17).getLsbD 16 = s.getLsbD 15 := by
  simp

/-- Settles O6: the bits are those of `engine_shiftBit_getLsbD`, the two forms those of `shiftBit_eq_xor`. -/
theorem shiftBitWiring : Obligations.ShiftBitWiring := by
  intro s b
  refine ⟨?_, ?_, ?_, fun k low high => ?_, ?_, fun off => ?_, fun on => ?_, feedback_eq s b, fun on => ?_⟩
  · rw [engine_shiftBit_getLsbD s b (by decide)]; simp
  · rw [engine_shiftBit_getLsbD s b (by decide)]; simp
  · rw [engine_shiftBit_getLsbD s b (by decide)]; simp
  · rw [engine_shiftBit_getLsbD s b (by omega), if_neg (by omega), decide_eq_false (by omega), Bool.and_false,
      Bool.xor_false]
  · rw [engine_shiftBit_getLsbD s b (by decide)]; simp
  · rw [shiftBit_eq_xor, off]
    exact BitVec.xor_zero
  · rw [shiftBit_eq_xor, on]
    rfl
  · rw [BitVec.getLsbD_xor, feedback_eq, on, POLY.top]
    rfl

end Sys2Proof.Machine
end

section
/-! PROOFS. The properties of `shiftWord` (40_bit_serial_shift.md R43). A state is known by its polynomial, and R67 says
which polynomial a word step leaves, so each property is an equation of polynomials. -/

namespace Sys2Proof

open Machine Config Polynomial

variable {order m n : Nat} {p : Generator order}

theorem toPoly_coeff_eq_one_iff (v : BitVec n) (k : Nat) : (toPoly v).coeff k = 1 ↔ v.getLsbD k = true := by
  rw [toPoly_coeff]
  simp

theorem toPoly_injective : Function.Injective (toPoly (n := n)) :=
  fun u v same => BitVec.eq_of_getLsbD_eq fun k _ => Bool.eq_iff_iff.2 (by
    rw [← toPoly_coeff_eq_one_iff, ← toPoly_coeff_eq_one_iff, same])

/-- Concatenation: the first vector moves up by the width of the second. -/
theorem toPoly_append (a : BitVec m) (b : BitVec n) : toPoly (a ++ b) = toPoly a * X ^ n + toPoly b := by
  ext k
  rw [coeff_add, coeff_mul_X_pow', toPoly_coeff, toPoly_coeff, toPoly_coeff, BitVec.getLsbD_append]
  by_cases low : k < n
  · simp [low, low.not_ge]
  · simp [low, not_lt.1 low]

/-- A state with its top `n` bits zero loses nothing when it makes place for `n` bits. -/
theorem toPoly_shiftLeft_or {s : BitVec order} (hn : n ≤ order) (small : s.toNat < 2 ^ (order - n)) (w : BitVec n) :
    toPoly (s <<< n ||| w.setWidth order) = toPoly s * X ^ n + toPoly w := by
  ext k
  rw [coeff_add, coeff_mul_X_pow', toPoly_coeff, toPoly_coeff, toPoly_coeff, BitVec.getLsbD_or,
    BitVec.getLsbD_shiftLeft, BitVec.getLsbD_setWidth]
  by_cases low : k < n
  · simp [low, low.not_ge, low.trans_le hn]
  · by_cases inside : k < order
    · simp [low, not_lt.1 low, inside]
    · have gone : s.getLsbD (k - n) = false :=
        Nat.testBit_lt_two_pow (small.trans_le (Nat.pow_le_pow_right two_pos (by omega)))
      simp [inside, gone, w.getLsbD_of_ge k (not_lt.1 low)]

/-- R43 (a). -/
theorem shiftLow_eq_shiftWord (s : BitVec order) (n : Nat) (word : BitVec m) :
    shiftLow order p word n s = shiftWord order p s n (word.setWidth n) :=
  toPoly_injective (by rw [toPoly_shiftLow, toPoly_shiftWord])

/-- R43 (b): two word steps multiply by `x^m` and then by `x^n`. -/
theorem shiftWord_append (s : BitVec order) (a : BitVec m) (b : BitVec n) :
    shiftWord order p s (m + n) (a ++ b) = shiftWord order p (shiftWord order p s m a) n b := by
  refine toPoly_injective ?_
  rw [toPoly_shiftWord, toPoly_shiftWord, toPoly_shiftWord, mod_mul_add_mod (toPoly_generator_monic p),
    toPoly_append]
  congr 1
  ring

/-- R43 (c). -/
theorem shiftWord_one (s : BitVec order) (b : Bit) : shiftWord order p s 1 b = shiftBit order p s b :=
  toPoly_injective (by rw [toPoly_shiftWord, toPoly_shiftBit, pow_one])

/-- R43 (d): a sum that fits in the state is its own remainder. -/
theorem shiftWord_fill {s : BitVec order} (hn : n ≤ order) (small : s.toNat < 2 ^ (order - n)) (w : BitVec n) :
    shiftWord order p s n w = s <<< n ||| w.setWidth order :=
  toPoly_injective (by rw [toPoly_shiftWord, ← toPoly_shiftLeft_or hn small, toPoly_mod])

/-- A word as wide as the state, shifted in after zero, is copied. -/
theorem shiftWord_zero_full (w : BitVec order) : shiftWord order p 0 order w = w :=
  toPoly_injective (by rw [toPoly_shiftWord, toPoly_zero, zero_mul, zero_add, toPoly_mod])

/-- R43 (e). -/
@[simp] theorem shiftWord_zero_zero (n : Nat) : shiftWord order p 0 n 0 = 0 :=
  toPoly_injective (by rw [toPoly_shiftWord, toPoly_zero, toPoly_zero, zero_mul, zero_add, zero_modByMonic])

/-- Settles O9: the properties one by one; the two bytes copied into `S` are one word of 16 bits. -/
theorem shiftWordProperties : Obligations.ShiftWordProperties := by
  refine fun order p s => ⟨fun n _ word _ => shiftLow_eq_shiftWord s n word, fun _ _ => shiftWord_append s,
    shiftWord_one s, fun _ w hn small => shiftWord_fill hn small w, fun a b => ?_, shiftWord_zero_zero⟩
  calc shiftWord 16 POLY (shiftWord 16 POLY 0 8 a) 8 b
      = shiftWord 16 POLY 0 (8 + 8) (a ++ b) := (shiftWord_append 0 a b).symm
    _ = a ++ b := shiftWord_zero_full (a ++ b)

end Sys2Proof
end

section
/-! PROOFS. SHB and SHW (40_bit_serial_shift.md R44, R45): what they do is what every command does, with the values
written out; their words; and the words their reserved bits make illegal. -/

namespace Sys2Proof.Machine

open Config

variable {s : State} {cmd : CommandWord}

/-- A command of a running engine, with every field of the next state written out. -/
theorem exec_running_eq (i : Instr) (ready : s.phase = .ready) (e : s.ERR = false) :
    exec i s = .next { s with S := i.nextS s.S, responses := s.responses ++ [⟨i.answer s.S, false⟩] } := by
  rw [exec_eq_execute i ready e, ← e]
  rfl

/-- A command in fail-stop, with every field of the next state written out. -/
theorem exec_failStop_eq (i : Instr) (ready : s.phase = .ready) (e : s.ERR = true) :
    exec i s = .next { s with responses := s.responses ++ [⟨s.S, true⟩] } := by
  rw [exec_failStop i ready e, ← e]
  rfl

/-- `arg[15:1]` is `cmd[15:1]`. -/
theorem reservedOfBit_argField (cmd : CommandWord) : reservedOfBit (argField cmd) = cmd.extractLsb' 1 15 :=
  BitVec.extractLsb'_extractLsb'_of_le (by decide)

/-- `arg[15:8]` is `cmd[15:8]`. -/
theorem reservedOfByte_argField (cmd : CommandWord) : reservedOfByte (argField cmd) = cmd.extractLsb' 8 8 :=
  BitVec.extractLsb'_extractLsb'_of_le (by decide)

/-- SHB with a reserved bit set (30_encoding.md R34). -/
theorem illegal_of_reservedOfBit (op : opField cmd = 0x2) (reserved : cmd.extractLsb' 1 15 ≠ 0) :
    legal cmd = false := by
  rw [← reservedOfBit_argField] at reserved
  refine illegal_iff.2 ⟨.reservedBitSet 0x2 (argField cmd), ?_⟩
  rw [decode, op]
  exact if_neg reserved

/-- SHW, UPD and TBL with a reserved bit set (30_encoding.md R34). -/
theorem illegal_of_reservedOfByte (op : opField cmd = 0x3 ∨ opField cmd = 0x4 ∨ opField cmd = 0x5)
    (reserved : cmd.extractLsb' 8 8 ≠ 0) : legal cmd = false := by
  rw [← reservedOfByte_argField] at reserved
  refine illegal_iff.2 ⟨.reservedBitSet (opField cmd) (argField cmd), ?_⟩
  obtain op | op | op := op <;> (rw [decode, op]; exact if_neg reserved)

/-- The number of a word with a byte as operand (30_encoding.md R30, R33). -/
theorem toNat_append_byte (op : BitVec 4) (w : Byte) :
    (op ++ w.setWidth 16).toNat = op.toNat * 2 ^ 16 + w.toNat := by
  rw [BitVec.toNat_append, ← Nat.shiftLeft_add_eq_or_of_lt (BitVec.isLt _), Nat.shiftLeft_eq,
    BitVec.toNat_setWidth_of_le (by decide)]

/-- The loop of `shiftWord` as a list of its steps, the top bit first (40_bit_serial_shift.md R42). -/
theorem shiftLow_eq_foldl {order m : Nat} {p : Generator order} (word : BitVec m) (n : Nat) (state : BitVec order) :
    shiftLow order p word n state =
      (List.range n).reverse.foldl (fun v k => shiftBit order p v (bitAt word k)) state := by
  induction n generalizing state with
  | zero => rfl
  | succ n ih => rw [shiftLow_succ, ih, List.range_succ, List.reverse_concat, List.foldl_cons]

/-- Settles O19: the two cases of a command, and a step on an illegal word. -/
theorem shbShiftsOneBit : Obligations.ShbShiftsOneBit := by
  refine ⟨fun b _ => exec_running_eq (.shb b), fun b _ => exec_failStop_eq (.shb b), rfl, rfl,
    fun cmd op reserved => ?_⟩
  have illegal : legal cmd = false := illegal_of_reservedOfBit op reserved
  exact ⟨illegal, fun _ _ ⟨ready, e⟩ hp => step_illegal hp ready e illegal⟩

/-- Settles O20: the two cases of a command; the steps of the loop run over bits 7 down to 0. -/
theorem shwShiftsOneByte : Obligations.ShwShiftsOneByte :=
  ⟨fun w _ => exec_running_eq (.shw w), fun w s => shiftLow_eq_foldl w 8 s.S,
    fun w _ => exec_failStop_eq (.shw w), toNat_append_byte 0x3,
    fun _ op => illegal_of_reservedOfByte (.inl op)⟩

end Sys2Proof.Machine
end

section
/-! PROOFS. Why the table may stand for the shifts (43_equivalence_laws.md R70): a word step is linear, so the top of
the state may be shifted out by itself, which is the table entry, while the rest of the state only makes place for the
word. -/

namespace Sys2Proof

open Machine Config Polynomial

variable {order n : Nat} {p : Generator order}

/-- R73 (a) for `shiftWord`: remainders add. -/
theorem shiftWord_xor (s₁ s₂ : BitVec order) (w₁ w₂ : BitVec n) :
    shiftWord order p (s₁ ^^^ s₂) n (w₁ ^^^ w₂) = shiftWord order p s₁ n w₁ ^^^ shiftWord order p s₂ n w₂ := by
  refine toPoly_injective ?_
  rw [toPoly_xor, toPoly_shiftWord, toPoly_shiftWord, toPoly_shiftWord, toPoly_xor, toPoly_xor, ← add_modByMonic]
  congr 1
  ring

/-- A word not wider than the state may be added after zeros were shifted in. -/
theorem shiftWord_eq_xor (hn : n ≤ order) (s : BitVec order) (w : BitVec n) :
    shiftWord order p s n w = shiftWord order p s n 0 ^^^ w.setWidth order := by
  have fill : shiftWord order p 0 n w = w.setWidth order := by
    rw [shiftWord_fill hn (Nat.two_pow_pos _)]
    simp
  rw [← fill, ← shiftWord_xor]
  simp

/-- The split of R70: the top `n` bits of a state in their place, and the bits below them. -/
theorem top_xor_low (hn : n ≤ order) (s : BitVec order) :
    (s.extractLsb' (order - n) n).setWidth order <<< (order - n) ^^^ (s.setWidth (order - n)).setWidth order = s := by
  refine BitVec.eq_of_getLsbD_eq fun k hk => ?_
  by_cases low : k < order - n
  · simp [hk, low]
  · have inside : k - (order - n) < n := by omega
    simp [hk, low, inside, Nat.add_sub_cancel' (not_lt.1 low)]

/-- The bits below the top `n` are those that stay when `n` bits are shifted in. -/
theorem low_shiftLeft (s : BitVec order) : (s.setWidth (order - n)).setWidth order <<< n = s <<< n := by
  refine BitVec.eq_of_getLsbD_eq fun k hk => ?_
  by_cases below : k < n
  · simp [below]
  · have low : k - n < order - n := by omega
    simp [hk, low, BitVec.getLsbD_eq_getElem (show k - n < order by omega)]

theorem low_lt (s : BitVec order) : ((s.setWidth (order - n)).setWidth order).toNat < 2 ^ (order - n) := by
  rw [BitVec.toNat_setWidth_of_le (Nat.sub_le _ _)]
  exact BitVec.isLt _

/-- R65 and R70: an update through the table of the generator is the word step. -/
theorem updateTableDriven_buildTable (bound : WordBound order n) (s : BitVec order) (w : BitVec n) :
    updateTableDriven order n bound (buildTable order p n bound) s w = shiftWord order p s n w :=
  calc updateTableDriven order n bound (buildTable order p n bound) s w
      = (s <<< n ||| w.setWidth order) ^^^ buildTable order p n bound (s.extractLsb' (order - n) n) :=
        updateTableDriven_eq_xor bound _ s w
    _ = shiftWord order p ((s.setWidth (order - n)).setWidth order) n w ^^^
          shiftWord order p ((s.extractLsb' (order - n) n).setWidth order <<< (order - n)) n 0 := by
        rw [shiftWord_fill bound.2 (low_lt s), low_shiftLeft, buildTable_apply]
    _ = shiftWord order p s n w := by
        rw [BitVec.xor_comm, ← shiftWord_xor, top_xor_low bound.2]
        simp

end Sys2Proof
end

section
/-! PROOFS. The table of the engine (41_table_driven_update.md R51, R52). It is linear, so its eight entries at the
powers of two fix it and the listing is made by doubling; it is injective, since the polynomial has a constant term. -/

namespace Sys2Proof

open Machine Config

variable {order m n : Nat} {p : Generator order}

/-- One vector over another, as a shift and an OR. -/
theorem append_eq_shiftLeft_or (a : BitVec m) (b : BitVec n) :
    a ++ b = a.setWidth (m + n) <<< n ||| b.setWidth (m + n) := by
  rw [← BitVec.setWidth_append_eq_shiftLeft_setWidth_or, BitVec.setWidth_eq]

/-- R51. -/
theorem TABLE_eq_shiftWord (w : Byte) : TABLE w = shiftWord 16 POLY (w ++ 0x00#8) 8 0x00 := by
  rw [TABLE_apply, append_eq_shiftLeft_or]
  simp

/-- Settles O10: shifting in `w` for the zeros adds `w` to the entry. -/
theorem tableShiftsOutItsIndex : Obligations.TableShiftsOutItsIndex := by
  refine fun w => ⟨TABLE_eq_shiftWord w, fun nonzero same => nonzero ?_⟩
  rw [shiftWord_eq_xor (by decide), ← TABLE_eq_shiftWord, eq_comm, xor_left_eq_self_iff] at same
  simpa using congrArg (BitVec.setWidth 8) same

/-! ### Linearity -/

/-- R73 (b). -/
theorem TABLE_xor (a b : Byte) : TABLE (a ^^^ b) = TABLE a ^^^ TABLE b := by
  rw [TABLE_apply, TABLE_apply, TABLE_apply, ← shiftWord_xor, BitVec.setWidth_xor, BitVec.shiftLeft_xor_distrib]
  simp

@[simp] theorem TABLE_zero : TABLE 0 = 0 := shiftWord_zero_zero 8

/-- Adding a bit that is not set is the same by XOR and by OR. -/
theorem xor_twoPow_eq_or {v : BitVec n} {k : Nat} (unset : v.getLsbD k = false) :
    v ^^^ BitVec.twoPow n k = v ||| BitVec.twoPow n k := by
  refine BitVec.eq_of_getLsbD_eq fun j _ => ?_
  rw [BitVec.getLsbD_xor, BitVec.getLsbD_or, BitVec.getLsbD_twoPow]
  by_cases new : k = j
  · rw [← new, unset, Bool.false_xor, Bool.false_or]
  · simp [new]

/-- A vector is put together from its set bits, here the low `k` of them. -/
theorem foldl_set_bits (v : BitVec n) (k : Nat) :
    (List.range k).foldl (fun acc j => if v.getLsbD j then acc ^^^ 1#n <<< j else acc) 0 =
      (v.setWidth k).setWidth n := by
  induction k with
  | zero => simp [BitVec.of_length_zero]
  | succ k ih =>
    rw [List.range_succ, List.foldl_concat, ih]
    cases bit : v.getLsbD k with
    | false => rw [BitVec.setWidth_setWidth_succ_eq_setWidth_setWidth_of_getLsbD_false bit]; rfl
    | true =>
      rw [BitVec.setWidth_setWidth_succ_eq_setWidth_setWidth_or_twoPow_of_getLsbD_true bit,
        ← xor_twoPow_eq_or (by simp)]
      rfl

/-- Every entry is the XOR of those at the set bits of its index. -/
theorem TABLE_eq_foldl (i : Byte) : TABLE i =
    (List.range 8).foldl (fun acc k => if i.getLsbD k then acc ^^^ TABLE (1#8 <<< k) else acc) 0 := by
  have step (acc : Byte) (k : Nat) : (if i.getLsbD k then TABLE acc ^^^ TABLE (1#8 <<< k) else TABLE acc) =
      TABLE (if i.getLsbD k then acc ^^^ 1#8 <<< k else acc) := by
    rw [← TABLE_xor, apply_ite TABLE]
  rw [← TABLE_zero, List.foldl_hom TABLE step, foldl_set_bits, BitVec.setWidth_eq, BitVec.setWidth_eq]

/-- A bit that is set in all eight entries at the powers of two is the parity of the index in every entry. -/
theorem TABLE_getLsbD_eq_parity {j : Nat} (set : ∀ k ∈ List.range 8, (TABLE (1#8 <<< k)).getLsbD j = true)
    (i : Byte) : (TABLE i).getLsbD j = (List.range 8).foldl (fun acc k => acc ^^ i.getLsbD k) false := by
  rw [TABLE_eq_foldl]
  refine List.foldl_rel (r := fun (e : LfsrWord) parity => e.getLsbD j = parity) BitVec.getLsbD_zero ?_
  rintro k hk e _ rfl
  cases bit : i.getLsbD k with
  | false => simp
  | true => simp [set k hk]

/-! ### The listing by doubling -/

/-- The eight entries the table is fixed by. -/
theorem TABLE_powers : (List.range 8).map (fun k => TABLE (1#8 <<< k)) =
    [0x8005, 0x800F, 0x801B, 0x8033, 0x8063, 0x80C3, 0x8183, 0x8303] := by
  decide

/-- A list of entries, and after it the same entries with `e` added (tied to the table by `map_TABLE_range_succ`). -/
def doubled (entries : List LfsrWord) (e : LfsrWord) : List LfsrWord :=
  entries ++ entries.map (· ^^^ e)

/-- A number with `k` bits takes one more bit on top. -/
theorem ofNat_two_pow_add {k i : Nat} (hi : i < 2 ^ k) :
    BitVec.ofNat n (2 ^ k + i) = BitVec.ofNat n i ^^^ 1#n <<< k := by
  have unset : (BitVec.ofNat n i).getLsbD k = false := by
    rw [BitVec.getLsbD_ofNat, Nat.testBit_lt_two_pow hi, Bool.and_false]
  have power : BitVec.ofNat n (2 ^ k) = BitVec.twoPow n k := by
    rw [← BitVec.toNat_inj, BitVec.toNat_ofNat, BitVec.toNat_twoPow]
  have apart : 2 ^ k + i = 2 ^ k ||| i := by simpa using Nat.two_pow_add_eq_or_of_lt hi 1
  rw [apart, BitVec.ofNat_or, power, BitVec.or_comm, ← xor_twoPow_eq_or unset, BitVec.twoPow_eq]

/-- The entries at the indices of `k + 1` bits: those of `k` bits, doubled by the next power of two. -/
theorem map_TABLE_range_succ (k : Nat) :
    (List.range (2 ^ (k + 1))).map (fun i => TABLE (BitVec.ofNat 8 i)) =
      doubled ((List.range (2 ^ k)).map fun i => TABLE (BitVec.ofNat 8 i)) (TABLE (1#8 <<< k)) := by
  rw [pow_succ, mul_two, List.range_add, List.map_append, doubled, List.map_map, List.map_map]
  congr 1
  refine List.map_congr_left fun i hi => ?_
  rw [Function.comp, Function.comp, ofNat_two_pow_add (List.mem_range.1 hi), TABLE_xor]

theorem map_TABLE_range_eq_foldl (k : Nat) :
    (List.range (2 ^ k)).map (fun i => TABLE (BitVec.ofNat 8 i)) =
      ((List.range k).map fun j => TABLE (1#8 <<< j)).foldl doubled [0] := by
  induction k with
  | zero => rfl
  | succ k ih => rw [map_TABLE_range_succ, ih, List.range_succ, List.map_append, List.map_singleton, List.foldl_concat]

/-- The whole table, doubled up from entry 0. -/
theorem tableEntries_TABLE : tableEntries TABLE =
    [0x8005, 0x800F, 0x801B, 0x8033, 0x8063, 0x80C3, 0x8183, 0x8303].foldl doubled [0] := by
  rw [← TABLE_powers, ← map_TABLE_range_eq_foldl, tableEntries]

/-! ### Injectivity -/

/-- R73 (d), one bit: bit 0 of the new state tells the bit that left the top, and the others tell the rest. -/
theorem shiftBit_injective (low : p.bits.getLsbD 0 = true) (b : Bit) :
    Function.Injective fun s => shiftBit order p s b := by
  intro s₁ s₂ same
  have bits (k : Nat) (hk : k < order) : (shiftBit order p s₁ b).getLsbD k = (shiftBit order p s₂ b).getLsbD k :=
    congrArg (BitVec.getLsbD · k) same
  refine BitVec.eq_of_getLsbD_eq fun k hk => ?_
  have feedback : s₁.getLsbD (order - 1) = s₂.getLsbD (order - 1) := by
    have := bits 0 (by omega)
    rw [shiftBit_getLsbD _ _ _ (by omega), shiftBit_getLsbD _ _ _ (by omega), low] at this
    simpa using this
  obtain inside | rfl : k + 1 < order ∨ k = order - 1 := by omega
  · have := bits (k + 1) inside
    rw [shiftBit_getLsbD _ _ _ inside, shiftBit_getLsbD _ _ _ inside, feedback] at this
    simpa using this
  · exact feedback

/-- R73 (d): a word step merges no two states. -/
theorem shiftLow_injective (low : p.bits.getLsbD 0 = true) (word : BitVec m) (k : Nat) :
    Function.Injective (shiftLow order p word k) := by
  induction k with
  | zero => exact fun _ _ same => same
  | succ k ih => exact ih.comp (shiftBit_injective low (bitAt word k))

/-- R73 (c). -/
theorem TABLE_injective : Function.Injective TABLE := by
  intro a b same
  rw [TABLE_eq_shiftWord, TABLE_eq_shiftWord] at same
  have appended : a ++ 0x00#8 = b ++ 0x00#8 := shiftLow_injective (by decide) _ _ same
  exact (BitVec.append_left_inj _).1 appended

theorem nodup_tableEntries {table : Table order n} (inj : Function.Injective table) :
    (tableEntries table).Nodup := by
  rw [tableEntries]
  refine List.Nodup.map_on (fun i hi j hj same => ?_) List.nodup_range
  have := congrArg BitVec.toNat (inj same)
  rwa [BitVec.toNat_ofNat, BitVec.toNat_ofNat, Nat.mod_eq_of_lt (List.mem_range.1 hi),
    Nat.mod_eq_of_lt (List.mem_range.1 hj)] at this

/-- Settles O11: the listing, its XOR, its sum and its count are evaluated on the doubled list, in the kernel, since 256
entries in a row are too deep for the elaborator; the other checks follow from linearity and injectivity. -/
theorem tableListingAndChecks : Obligations.TableListingAndChecks := by
  refine ⟨?listing, TABLE_zero, ?powers, TABLE_eq_foldl, nodup_tableEntries TABLE_injective, ?xor, ?sum,
    fun i => ⟨TABLE_getLsbD_eq_parity (by decide) i, TABLE_getLsbD_eq_parity (by decide) i⟩, ?count⟩
  case powers => simpa [List.range_succ] using TABLE_powers
  all_goals rw [tableEntries_TABLE]
  case listing => decide +kernel
  case xor => decide +kernel
  case sum => decide +kernel
  case count => decide +kernel

end Sys2Proof
end

section
/-! PROOFS. The table update at the engine's constants (41_table_driven_update.md R54), and the commands TBL and UPD
(R55, R56). -/

namespace Sys2Proof.Machine

open Config

/-- The state shifted up and filled with the byte is the low byte of the state over the new byte. -/
theorem fill_eq_append (s : LfsrWord) (w : Byte) : s <<< 8 ||| w.setWidth 16 = s.extractLsb' 0 8 ++ w := by
  rw [append_eq_shiftLeft_or, ← BitVec.setWidth_eq_extractLsb' (by decide)]
  exact congrArg (· ||| w.setWidth 16) (low_shiftLeft (n := 8) s).symm

/-- R54. -/
theorem updateTableDriven_TABLE (s : LfsrWord) (w : Byte) :
    updateTableDriven 16 8 engine_bound TABLE s w =
      (s.extractLsb' 0 8 ++ w) ^^^ TABLE (s.extractLsb' 8 8) := by
  rw [updateTableDriven_eq_xor, fill_eq_append]

/-- Settles O12: with the index 0 the entry is 0, and the mask only takes the bits above the state. -/
theorem tableUpdateWiring : Obligations.TableUpdateWiring := by
  intro s w
  refine ⟨updateTableDriven_TABLE s w, fun high => ?_, ?_⟩
  · rw [updateTableDriven_TABLE, high, TABLE_zero]
    exact BitVec.xor_zero
  · have masked : (s.setWidth 24 <<< 8 ||| w.setWidth 24).setWidth 16 = s <<< 8 ||| w.setWidth 16 := by
      ext k hk
      simp
    rw [masked, updateTableDriven_eq_xor]

/-- Settles O23: the contract of the two datapaths, in the frame of a command. -/
theorem updAndShwAreOneCommand : Obligations.UpdAndShwAreOneCommand := by
  intro w s
  have agree (v : LfsrWord) : updateTableDriven 16 8 engine_bound TABLE v w = shiftWord 16 POLY v 8 w :=
    updateTableDriven_buildTable engine_bound v w
  simp only [exec, execUpd, execShw, agree]

/-- Settles O21: the two cases of a command, the new `S` as R54 writes it; its words. -/
theorem updUpdatesThroughTheTable : Obligations.UpdUpdatesThroughTheTable := by
  refine ⟨fun w s ready e => ?_, fun w _ => exec_failStop_eq (.upd w), toNat_append_byte 0x4,
    fun _ op => illegal_of_reservedOfByte (.inr (.inl op))⟩
  rw [← updateTableDriven_TABLE]
  exact exec_running_eq (.upd w) ready e

/-- Settles O22: the two cases of a command, which writes `S` back to itself; its words. -/
theorem tblReadsOneEntry : Obligations.TblReadsOneEntry :=
  ⟨fun k _ => exec_running_eq (.tbl k), fun k _ => exec_failStop_eq (.tbl k), toNat_append_byte 0x5,
    fun _ op => illegal_of_reservedOfByte (.inr (.inr op))⟩

end Sys2Proof.Machine
end

section
/-! PROOFS. NOP and LD (42_state_access.md R60, R61): what they do to a ready engine, and the words with their
operation codes. -/

namespace Sys2Proof.Machine

variable {s : State} {cmd : CommandWord}

/-- NOP does the same in a running engine and in fail-stop: it responds `S`, with `ERR` as it stands. -/
theorem exec_nop_eq_respond (ready : s.phase = .ready) : exec .nop s = .next (s.respond s.S) := by
  cases e : s.ERR with
  | false => exact exec_eq_execute .nop ready e
  | true => exact exec_failStop .nop ready e

/-- NOP with a reserved bit set, which is any bit of `arg` (30_encoding.md R34). -/
theorem illegal_of_reservedOfNop (op : opField cmd = 0x0) (reserved : reservedOfNop (argField cmd) ≠ 0) :
    legal cmd = false := by
  refine illegal_iff.2 ⟨.reservedBitSet 0x0 (argField cmd), ?_⟩
  rw [decode, op]
  exact if_neg reserved

/-- LD has no reserved bits: a word with its operation code is the word of LD with `arg` as operand. -/
theorem encode_ld_argField (op : opField cmd = 0x1) : encode (.ld (argField cmd)) = cmd :=
  calc encode (.ld (argField cmd))
    _ = opField cmd ++ argField cmd := by rw [op]; rfl
    _ = cmd := opField_append_argField cmd

/-- Settles O17: one equation for both values of `ERR`; the words with the operation code of NOP. -/
theorem nopReadsTheState : Obligations.NopReadsTheState :=
  ⟨fun _ => exec_nop_eq_respond, rfl, fun _ => illegal_of_reservedOfNop⟩

/-- Settles O18: the two cases of a command; a word with the operation code of LD is decoded as the word it encodes. -/
theorem ldLoadsTheState : Obligations.LdLoadsTheState :=
  ⟨fun imm _ => exec_running_eq (.ld imm), fun imm _ => exec_failStop_eq (.ld imm),
    fun _ op => decode_eq_ok_iff.2 (encode_ld_argField op)⟩

end Sys2Proof.Machine
end

section
/-! PROOFS. The laws of the four functions (43_equivalence_laws.md): they take remainders by the generator (R66, R67),
the table stands for the shifts (R65, R70) also where it spans the whole state space (R72), and all of them are linear
(R73). -/

namespace Sys2Proof

open Machine Config Polynomial

variable {order n : Nat} {p : Generator order}

/-- Settles O7: the case split on the bit that leaves the top is in `toPoly_shiftBit`. -/
theorem shiftBitIsRemainder : Obligations.ShiftBitIsRemainder :=
  fun _ _ => toPoly_shiftBit

/-! ### The table as remainders -/

/-- The index of a table entry, placed in the top bits of the state (41_table_driven_update.md R50). -/
theorem toPoly_top (hn : n ≤ order) (w : BitVec n) :
    toPoly (w.setWidth order <<< (order - n)) = toPoly w * X ^ (order - n) := by
  have small : (w.setWidth order).toNat < 2 ^ (order - (order - n)) := by
    rw [BitVec.toNat_setWidth_of_le hn, Nat.sub_sub_self hn]
    exact w.isLt
  have placed := toPoly_shiftLeft_or (Nat.sub_le order n) small 0
  rw [toPoly_zero, add_zero, toPoly_setWidth w fun k hk => w.getLsbD_of_ge k (hn.trans hk)] at placed
  simpa using placed

/-- R67 for a table entry: the index is moved up by `order - n` and then by `n`. -/
theorem toPoly_buildTable (bound : WordBound order n) (w : BitVec n) :
    toPoly (buildTable order p n bound w) = (toPoly w * X ^ order) %ₘ toPoly p.bits := by
  rw [buildTable_apply, toPoly_shiftWord, toPoly_top bound.2, toPoly_zero, add_zero, mul_assoc,
    pow_sub_mul_pow X bound.2]

/-- A longer table extends a shorter one: the entry does not depend on the length of its index. -/
theorem buildTable_setWidth {n' : Nat} (bound : WordBound order n) (bound' : WordBound order n') (longer : n ≤ n')
    (w : BitVec n) : buildTable order p n' bound' (w.setWidth n') = buildTable order p n bound w :=
  toPoly_injective (by
    rw [toPoly_buildTable, toPoly_buildTable, toPoly_setWidth w fun k hk => w.getLsbD_of_ge k (longer.trans hk)])

/-- Settles O8: the engine's table is the one of its generator. -/
theorem shiftWordIsRemainder : Obligations.ShiftWordIsRemainder :=
  ⟨fun _ _ => toPoly_shiftWord, toPoly_buildTable engine_bound, fun _ _ _ => toPoly_buildTable,
    fun _ _ _ _ bound bound' w longer => buildTable_setWidth bound bound' longer w⟩

/-! ### The contract and its boundary -/

/-- Settles O14: the engine is one case of the general form. -/
theorem datapathsAgree : Obligations.DatapathsAgree :=
  ⟨updateTableDriven_buildTable engine_bound, fun _ _ bound _ => updateTableDriven_buildTable bound⟩

/-- R72: the index of a table as long as the state is the initial state. -/
theorem buildTable_full (bound : WordBound order order) (w : BitVec order) :
    buildTable order p order bound w = shiftWord order p w order 0 := by
  rw [buildTable_apply, BitVec.setWidth_eq, Nat.sub_self, BitVec.shiftLeft_zero]

/-- R72: the whole state is the index, and nothing of it stays beside the word. -/
theorem updateTableDriven_full (bound : WordBound order order) (table : Table order order) (s w : BitVec order) :
    updateTableDriven order order bound table s w = w ^^^ table s := by
  rw [updateTableDriven_eq_xor, BitVec.shiftLeft_eq_zero le_rfl, BitVec.zero_or, BitVec.setWidth_eq, Nat.sub_self,
    BitVec.extractLsb'_eq_self]

/-- Settles O15: the three entries are sixteen shifts each. -/
theorem boundaryInstance : Obligations.BoundaryInstance := by
  refine ⟨fun order bound p s w => ⟨buildTable_full bound w, fun table => updateTableDriven_full bound table s w,
    updateTableDriven_buildTable bound s w⟩, fun bound => ?_⟩
  rw [buildTable_full, buildTable_full, buildTable_full]
  exact ⟨by decide +kernel, by decide +kernel, by decide +kernel, length_tableEntries _⟩

/-! ### Linearity -/

/-- R73 (a) for `shiftBit`, which is `shiftWord` at length 1. -/
theorem shiftBit_xor (s₁ s₂ : BitVec order) (b₁ b₂ : Bit) :
    shiftBit order p (s₁ ^^^ s₂) (b₁ ^^^ b₂) = shiftBit order p s₁ b₁ ^^^ shiftBit order p s₂ b₂ := by
  simpa only [shiftWord_one] using shiftWord_xor s₁ s₂ b₁ b₂

/-- R73 (a) for `updateTableDriven`, by the contract. -/
theorem updateTableDriven_xor (bound : WordBound order n) (s₁ s₂ : BitVec order) (w₁ w₂ : BitVec n) :
    updateTableDriven order n bound (buildTable order p n bound) (s₁ ^^^ s₂) (w₁ ^^^ w₂) =
      updateTableDriven order n bound (buildTable order p n bound) s₁ w₁ ^^^
        updateTableDriven order n bound (buildTable order p n bound) s₂ w₂ := by
  simp only [updateTableDriven_buildTable, shiftWord_xor]

/-- R73 (d): a word step merges no two of finitely many states, so it reaches them all. -/
theorem shiftWord_bijective (low : p.bits.getLsbD 0 = true) (w : BitVec n) :
    Function.Bijective fun s => shiftWord order p s n w :=
  Finite.injective_iff_bijective.1 (shiftLow_injective low w n)

/-- Settles O16: by the contract the map of UPD is the map of SHW. -/
theorem datapathsAreLinear : Obligations.DatapathsAreLinear := by
  refine ⟨fun order p s₁ s₂ => ⟨shiftBit_xor s₁ s₂, fun _ => shiftWord_xor s₁ s₂,
    fun _ bound => updateTableDriven_xor bound s₁ s₂⟩, ⟨TABLE_xor, TABLE_zero⟩, TABLE_injective, fun w => ?_⟩
  have shw : Function.Bijective fun s : LfsrWord => shiftWord 16 POLY s 8 w := shiftWord_bijective (by decide) w
  have same : (fun s : LfsrWord => updateTableDriven 16 8 engine_bound TABLE s w) = fun s => shiftWord 16 POLY s 8 w :=
    funext fun s => datapathsAgree.1 s w
  exact ⟨shw, same ▸ shw⟩

end Sys2Proof
end

section
/-! PROOFS. A run of legal commands on a running engine (70_reset_and_hazards.md R97): the value it leaves in `S` and
the responses it yields, each by recursion over the commands. -/

namespace Sys2Proof

/-- What a list of commands leaves in `S` when it held `v` (tied to the machine by `run_give`). -/
def lastS (is : List Instr) (v : LfsrWord) : LfsrWord := is.foldl (fun v i => i.nextS v) v

/-- The responses to a list of commands (tied to the machine by `run_give`). -/
def answers : List Instr → LfsrWord → List Machine.Response
  | [], _ => []
  | i :: is, v => ⟨i.answer v, false⟩ :: answers is (i.nextS v)

@[simp] theorem length_answers (is : List Instr) (v : LfsrWord) : (answers is v).length = is.length := by
  induction is generalizing v with
  | nil => rfl
  | cons i is ih => rw [answers, List.length_cons, ih, List.length_cons]

theorem answers_concat (is : List Instr) (i : Instr) (v : LfsrWord) :
    answers (is ++ [i]) v = answers is v ++ [⟨i.answer (lastS is v), false⟩] := by
  induction is generalizing v with
  | nil => rfl
  | cons j is ih => exact congrArg (_ :: ·) (ih (j.nextS v))

end Sys2Proof

namespace Sys2Proof.Machine

variable {s t : State}

theorem run_succ_of_step (k : Nat) (h : step s = .next t) : core.run (k + 1) s = core.run k t := by
  have next : core.step s = .next t := h
  simp only [Host.Core.run, next]

/-- A running engine executes a list of commands to its end. -/
theorem run_give (is : List Instr) (running : Running s) (hp : s.pending = give is) :
    core.run is.length s = .next { s with
      S := lastS is s.S, pending := [], responses := s.responses ++ answers is s.S } := by
  induction is generalizing s with
  | nil =>
    have stays : { s with S := lastS [] s.S, pending := [], responses := s.responses ++ answers [] s.S } = s := by
      rw [answers, List.append_nil, show [] = s.pending from hp.symm]
      rfl
    rw [stays]
    rfl
  | cons i is ih =>
    have first := step_encode (rest := give is) running hp
    refine (run_succ_of_step is.length first).trans ((ih ?ready ?given).trans ?fields)
    case ready => exact running
    case given => rfl
    case fields => simp only [List.append_assoc]; rfl

end Sys2Proof.Machine
end

section
/-! PROOFS. Messages (43_equivalence_laws.md R68, R71, R74): a byte does the same through either datapath, so the value
of `S` after a message depends on its bytes alone, and it is a remainder. -/

namespace Sys2Proof

open Machine Config Polynomial

variable {s : State}

/-- The bytes of a message shifted into `v`, the first byte first (tied to the machine by `run_giveBytes`). -/
def shiftBytes (bs : List Byte) (v : LfsrWord) : LfsrWord := bs.foldl (fun v b => shiftWord 16 POLY v 8 b) v

/-- The commands of a message. -/
def messageCommands (m : List (Datapath × Byte)) : List Instr := m.map fun x => byteCommand x.1 x.2

/-- R65 for the commands: the datapath does not matter. -/
theorem nextS_byteCommand (d : Datapath) (w : Byte) (v : LfsrWord) :
    (byteCommand d w).nextS v = shiftWord 16 POLY v 8 w := by
  cases d with
  | bitSerial => rfl
  | tableDriven => exact datapathsAgree.1 v w

theorem lastS_messageCommands (m : List (Datapath × Byte)) (v : LfsrWord) :
    lastS (messageCommands m) v = shiftBytes (m.map Prod.snd) v := by
  simp only [lastS, messageCommands, shiftBytes, List.foldl_map, nextS_byteCommand]

/-- A running engine given a message ends with the bytes of the message shifted in. -/
theorem run_giveBytes (m : List (Datapath × Byte)) (running : Running s) (hp : s.pending = giveBytes m) :
    core.run m.length s = .next { s with
      S := shiftBytes (m.map Prod.snd) s.S, pending := [],
      responses := s.responses ++ answers (messageCommands m) s.S } := by
  rw [← lastS_messageCommands, ← run_give (messageCommands m) running hp, messageCommands, List.length_map]

/-! ### Two bytes as one word, and reachability -/

theorem shiftWord_two_bytes (v : LfsrWord) (a b : Byte) :
    shiftWord 16 POLY (shiftWord 16 POLY v 8 a) 8 b = shiftWord 16 POLY v 16 (a ++ b) :=
  (shiftWord_append v a b).symm

theorem high_append_low (r : LfsrWord) : r.extractLsb' 8 8 ++ r.extractLsb' 0 8 = r := by
  exact (BitVec.extractLsb'_append_extractLsb'_eq_extractLsb' rfl).trans BitVec.extractLsb'_eq_self

/-- Settles O37: after zero a word of sixteen bits is copied, and so is a byte, which is why it cannot leave zero. -/
theorem everyStateIsReachable : Obligations.EveryStateIsReachable := by
  refine ⟨fun s r d₁ d₂ running zero hp => ⟨_, run_giveBytes _ running hp, ?_, running⟩,
    fun s r ⟨ready, e⟩ => ⟨_, exec_running_eq (.ld r) ready e, rfl⟩,
    fun s d w ⟨ready, e⟩ zero nonzero => ⟨_, exec_running_eq (byteCommand d w) ready e, fun left => nonzero ?_⟩,
    by decide⟩
  · calc shiftWord 16 POLY (shiftWord 16 POLY s.S 8 (r.extractLsb' 8 8)) 8 (r.extractLsb' 0 8)
        = shiftWord 16 POLY 0 16 r := by rw [shiftWord_two_bytes, high_append_low, zero]
      _ = r := shiftWord_zero_full r
  · have copied : w.setWidth 16 = 0 := by
      rw [zero, nextS_byteCommand, shiftWord_eq_xor (by decide), shiftWord_zero_zero] at left
      simpa using left
    simpa using congrArg (BitVec.setWidth 8) copied

/-! ### The three sequences -/

/-- The eight SHB of a byte. -/
def bitCommands (w : Byte) : List Instr := (List.range 8).reverse.map fun k => .shb (bitAt w k)

theorem giveBits_eq_give (w : Byte) : giveBits w = give (bitCommands w) := rfl

/-- The steps of the loop of `shiftWord`, each given as a command. -/
theorem lastS_bitCommands (w : Byte) (v : LfsrWord) : lastS (bitCommands w) v = shiftWord 16 POLY v 8 w := by
  rw [lastS, bitCommands, List.foldl_map, shiftWord_eq_shiftLow, shiftLow_eq_foldl]
  rfl

/-- The last of the eight responses carries the final `S`. -/
theorem answers_bitCommands (w : Byte) (v : LfsrWord) : answers (bitCommands w) v =
    answers (bitCommands w).dropLast v ++ [⟨shiftWord 16 POLY v 8 w, false⟩] := by
  rw [← lastS_bitCommands]
  exact answers_concat (bitCommands w).dropLast (.shb (bitAt w 0)) v

/-- Settles O38: the three values are `shiftWord`, by the contract for UPD and by its loop for the SHB; two messages of
the same bytes shift in the same. -/
theorem threeSequencesAgree : Obligations.ThreeSequencesAgree := by
  refine ⟨fun s w running => ?_, fun s m m' running same =>
    ⟨_, _, run_giveBytes m running rfl, run_giveBytes m' running rfl, congrArg (shiftBytes · s.S) same⟩⟩
  have upd : (Instr.upd w).nextS s.S = shiftWord 16 POLY s.S 8 w := nextS_byteCommand .tableDriven w s.S
  refine ⟨shiftWord 16 POLY s.S 8 w, _, _, _, run_give [.upd w] running rfl, run_give [.shw w] running rfl,
    run_give (bitCommands w) running (giveBits_eq_give w), ⟨upd, rfl, lastS_bitCommands w s.S⟩, ?_, rfl,
    answers (bitCommands w).dropLast s.S, length_answers _ _, ?_⟩
  · exact congrArg (fun v => s.responses ++ [⟨v, false⟩]) upd
  · rw [answers_bitCommands, List.append_assoc]

/-! ### The running value -/

theorem P_monic : P.Monic := toPoly_generator_monic POLY

/-- R68: the remainder of the message, with the first value of `S` above it. -/
theorem toPoly_shiftBytes (bs : List Byte) (v : LfsrWord) :
    toPoly (shiftBytes bs v) = (toPoly v * X ^ (8 * bs.length) + messagePoly bs) %ₘ P := by
  induction bs generalizing v with
  | nil => rw [messagePoly, List.length_nil, mul_zero, pow_zero, mul_one, add_zero, P, toPoly_mod]; rfl
  | cons b bs ih =>
    calc toPoly (shiftBytes (b :: bs) v)
        = (toPoly (shiftWord 16 POLY v 8 b) * X ^ (8 * bs.length) + messagePoly bs) %ₘ P := ih _
      _ = ((toPoly v * X ^ 8 + toPoly b) * X ^ (8 * bs.length) + messagePoly bs) %ₘ P := by
        rw [toPoly_shiftWord, ← P, mod_mul_add_mod P_monic]
      _ = (toPoly v * X ^ (8 * (b :: bs).length) + messagePoly (b :: bs)) %ₘ P := by
        rw [messagePoly, List.length_cons]
        ring_nf

/-- Two more bytes are one more word of sixteen bits. -/
theorem shiftBytes_append_two (bs : List Byte) (a b : Byte) (v : LfsrWord) :
    shiftBytes (bs ++ [a, b]) v = shiftWord 16 POLY (shiftBytes bs v) 16 (a ++ b) := by
  rw [← shiftWord_two_bytes, shiftBytes, List.foldl_append]
  rfl

/-- The check word of a message given from 0. -/
theorem toPoly_shiftBytes_zeros (bs : List Byte) :
    toPoly (shiftBytes (bs ++ [0, 0]) 0) = (messagePoly bs * X ^ 16) %ₘ P := by
  have zeros : (0 : Byte) ++ (0 : Byte) = (0 : LfsrWord) := rfl
  rw [shiftBytes_append_two, zeros, toPoly_shiftWord, toPoly_shiftBytes, ← P,
    mod_mul_add_mod P_monic, toPoly_zero, zero_mul, zero_add, add_zero]

/-- The message with its check word ends at 0: shifting in the check word for zeros adds it to itself. -/
theorem shiftBytes_checkWord {bs : List Byte} {v r : LfsrWord} (check : shiftBytes (bs ++ [0, 0]) v = r) :
    shiftBytes (bs ++ [r.extractLsb' 8 8, r.extractLsb' 0 8]) v = 0 := by
  have zeros : shiftWord 16 POLY (shiftBytes bs v) 16 0 = r := by rw [← check, shiftBytes_append_two]; rfl
  rw [shiftBytes_append_two, high_append_low, shiftWord_eq_xor le_rfl, zeros, BitVec.setWidth_eq, BitVec.xor_self]
  rfl

/-- A message with two more bytes, which the check word and the zeros for it are. -/
theorem run_giveBytes_append_two (m : List (Datapath × Byte)) (x y : Datapath × Byte) (running : Running s) :
    core.run (m.length + 2) { s with pending := giveBytes (m ++ [x, y]) } = .next { s with
      S := shiftBytes (m.map Prod.snd ++ [x.2, y.2]) s.S, pending := [],
      responses := s.responses ++ answers (messageCommands (m ++ [x, y])) s.S } := by
  simpa using run_giveBytes (s := { s with pending := giveBytes (m ++ [x, y]) }) (m ++ [x, y]) running rfl

/-- Settles O39: the remainders and the check word, as values a run leaves in `S`. -/
theorem runningValueIsRemainder : Obligations.RunningValueIsRemainder := by
  refine ⟨fun s m running hp => ⟨_, run_giveBytes m running hp, running, ?_⟩, fun s m d₁ d₂ running zero =>
    ⟨_, _, run_giveBytes_append_two m _ _ running, ?_, run_giveBytes_append_two m _ _ running, ?_⟩⟩
  · rw [toPoly_shiftBytes, List.length_map]
  · rw [zero, toPoly_shiftBytes_zeros]
  · exact shiftBytes_checkWord rfl

end Sys2Proof
end

section
/-! PROOFS. Faults (60_exceptions.md): the order in which a step tests (R82), what can set `ERR` (R80, R83), the record
a fault leaves (R81), and the one way out of fail-stop (R84). -/

namespace Sys2Proof.Machine

variable {s t u : State} {cmd : CommandWord} {l : Letter} {rest : List Letter} {n : Nat}

/-! ### One step -/

/-- Settles O26: the three cases of a step given a word, the first two with every field written out. -/
theorem stepTestsInOrder : Obligations.StepTestsInOrder := by
  intro s cmd rest ready hp
  refine ⟨fun e => ?_, fun e illegal => ?_, fun _ i d => stepRunsTheDecodedCommand s cmd rest i hp d⟩
  · rw [step_failStop hp ready e, ← e]
    rfl
  · rw [step_illegal hp ready e illegal]
    rfl

/-- Whatever the state before it, a step that answers leaves a fault on record: Reset leaves none in force, and a
command that leaves `ERR` set responded `S`, which it did not change. -/
theorem faultIsOnRecord_of_step (h : step s = .next t) : FaultIsOnRecord t := by
  obtain ⟨l, rest, hp, -⟩ := step_next_cases h
  obtain ⟨-, rfl⟩ | ⟨cmd, -, ready, ⟨e, rfl⟩ | ⟨-, -, rfl⟩ | ⟨e, i, -, rfl⟩⟩ := step_next_of_letter hp h
  · exact ⟨rfl, nofun⟩
  · exact ⟨ready, by simp [e]⟩
  · exact ⟨ready, by simp⟩
  · exact ⟨ready, by simp [e]⟩

/-- Settles O43: every step that answers establishes the invariant. -/
theorem stepKeepsFaultOnRecord : Obligations.StepKeepsFaultOnRecord :=
  fun _ _ _ h => faultIsOnRecord_of_step h

/-- What a command does to `ERR` (R12), for the letter at hand. -/
theorem step_command_ERR (hp : s.pending = .command cmd :: rest) (h : step s = .next t) :
    t.ERR = (s.ERR || !legal cmd) :=
  ((errIsSticky s t _ rest hp h).2 cmd rfl).1

/-- Settles O27: a legal word is executed, which leaves `ERR` alone; and by R12 a step from `ERR` = 0 sets `ERR` only
for an illegal word. -/
theorem legalCommandsNeverFault : Obligations.LegalCommandsNeverFault := by
  intro s cmd rest ⟨ready, e⟩ hp
  refine ⟨fun isLegal => ?_, fun t h faulted => ?_⟩
  · obtain ⟨i, d⟩ := legal_iff.1 isLegal
    exact ⟨_, step_legal hp ready e d, ⟨ready, e⟩, i.answer s.S, by simp [e]⟩
  · simpa [faulted, e] using step_command_ERR hp h

/-- What a running engine does with a legal word or Reset: it goes on running, and no response carries `err` = 1. -/
theorem step_of_isLegal (running : Running s) (hp : s.pending = l :: rest) (isLegal : l.isLegal = true) :
    ∃ t new, step s = .next t ∧ Running t ∧ t.responses = s.responses ++ new ∧ ∀ r ∈ new, r.err = false := by
  cases l with
  | reset => exact ⟨_, [], step_reset hp, ⟨rfl, rfl⟩, by simp⟩
  | command cmd =>
    obtain ⟨t, h, running', q, responses⟩ := (legalCommandsNeverFault s cmd rest running hp).1 isLegal
    exact ⟨t, [⟨q, false⟩], h, running', responses, by simp⟩

/-- Settles O45: the letter given is legal, so the engine goes on running, and the letters after it are legal too. -/
theorem stepKeepsOnlyLegalAhead : Obligations.StepKeepsOnlyLegalAhead := by
  intro s t ⟨running, ahead⟩ h
  obtain ⟨l, rest, hp, -⟩ := step_next_cases h
  rw [hp, List.all_cons, Bool.and_eq_true] at ahead
  obtain ⟨isLegal, ahead⟩ := ahead
  obtain ⟨t', _, h', running', -⟩ := step_of_isLegal running hp isLegal
  cases h'.symm.trans h
  exact ⟨running', by rw [step_pending hp h, ahead]⟩

/-- No command leaves fail-stop. -/
theorem step_command_faulted (hp : s.pending = .command cmd :: rest) (e : Faulted s) (h : step s = .next t) :
    Faulted t := by
  rw [Faulted, step_command_ERR hp h, e, Bool.true_or]

/-- Settles O29: Reset clears `ERR` and `S`, and every other letter is a command. -/
theorem onlyResetLeavesFailStop : Obligations.OnlyResetLeavesFailStop := by
  intro s t l rest hp e h
  cases l with
  | reset =>
    rw [step_reset hp] at h
    cases h
    exact ⟨⟨fun _ => rfl, fun _ => rfl⟩, fun _ => rfl⟩
  | command cmd =>
    have faulted : t.ERR = true := step_command_faulted hp e h
    exact ⟨⟨by simp [faulted], nofun⟩, by simp [faulted]⟩

/-! ### Whole runs -/

/-- A running engine takes legal letters to their end: `step_of_isLegal` along the list. -/
theorem run_of_onlyLegalAhead {letters : List Letter} (hp : s.pending = letters) (h : OnlyLegalAhead s) :
    ∃ t new, core.run letters.length s = .next t ∧ Running t ∧
      t.responses = s.responses ++ new ∧ ∀ r ∈ new, r.err = false := by
  induction letters generalizing s with
  | nil => exact ⟨s, [], rfl, h.1, by simp⟩
  | cons l rest ih =>
    obtain ⟨running, ahead⟩ := h
    have isLegal : l.isLegal = true := List.all_eq_true.1 ahead l (by simp [hp])
    obtain ⟨t, first, hstep, -, responses, good⟩ := step_of_isLegal running hp isLegal
    obtain ⟨u, later, hrun, running', responses', good'⟩ :=
      ih (step_pending hp hstep) (stepKeepsOnlyLegalAhead s t ⟨running, ahead⟩ hstep)
    refine ⟨u, first ++ later, (run_succ_next hstep).trans hrun, running', ?_, ?_⟩
    · rw [responses', responses, List.append_assoc]
    · exact fun r hr => (List.mem_append.1 hr).elim (good r) (good' r)

/-- Settles O41: the engine still runs at the end, so it is not faulted. -/
theorem legalProgramsEndWell : Obligations.LegalProgramsEndWell := by
  intro s running ahead
  obtain ⟨t, new, hrun, ⟨-, e⟩, responses, good⟩ := run_of_onlyLegalAhead rfl ⟨running, ahead⟩
  exact ⟨t, new, hrun, by simp [e], responses, good⟩

/-- A run has taken one letter for each of its steps. -/
theorem run_pending {before after : List Letter} (hp : s.pending = before ++ after)
    (h : core.run before.length s = .next t) : t.pending = after := by
  induction before generalizing s with
  | nil => cases h; exact hp
  | cons l before ih =>
    obtain ⟨m, first, later⟩ := run_succ_cases h
    exact ih (step_pending hp first) later

/-- Without a Reset to come, a faulted engine stays faulted however far the run goes. -/
theorem run_faulted (e : Faulted s) (noReset : .reset ∉ s.pending) (h : core.run n s = .next u) : Faulted u := by
  induction n generalizing s with
  | zero => cases h; exact e
  | succ n ih =>
    obtain ⟨t, first, later⟩ := run_succ_cases h
    obtain ⟨l, rest, hp, -⟩ := step_next_cases first
    rw [hp, List.mem_cons, not_or] at noReset
    obtain ⟨notReset, noReset⟩ := noReset
    cases l with
    | reset => exact absurd rfl notReset
    | command cmd =>
      exact ih (step_command_faulted hp e first) (by rwa [step_pending hp first]) later

/-- Settles O42: from the faulted state the run goes on with the letters of `after`, and without Reset among them it
would end faulted. -/
theorem goodEndAfterAFaultNeedsReset : Obligations.GoodEndAfterAFaultNeedsReset := by
  intro s t u before after hp hfault faulted hend good
  by_contra noReset
  rw [List.length_append, run_append hfault] at hend
  exact good (run_faulted faulted (by rwa [run_pending hp hfault]) hend)

end Sys2Proof.Machine
end

section
/-! PROOFS. Reset and runs (70_reset_and_hazards.md): the power-on state and the way out of it (R90, R91), the base cases
of the two invariants, and the progress of an engine that has been reset, letter by letter (R94) and to the end of the
host's list (R97). -/

namespace Sys2Proof.Machine

variable {s : State} {cmd : CommandWord} {rest : List Letter}

/-! ### Reset and the power-on state -/

/-- Settles O31: the next state is `State.applyReset` of the state with the letter taken. -/
theorem resetFromAnyState : Obligations.ResetFromAnyState :=
  ⟨fun _ _ hp => ⟨_, step_reset hp, rfl, rfl, rfl, rfl⟩, rfl, rfl⟩

/-- Settles O44: no fault is in force after Reset, so none has to be on record. -/
theorem resetMeetsFaultIsOnRecord : Obligations.ResetMeetsFaultIsOnRecord :=
  ⟨rfl, nofun⟩

/-- Settles O46: the engine runs after Reset, and the host has no letter yet. -/
theorem resetMeetsOnlyLegalAhead : Obligations.ResetMeetsOnlyLegalAhead :=
  ⟨⟨rfl, rfl⟩, rfl⟩

/-- Before the first Reset a command word faults without being decoded. -/
theorem step_unreset (hp : s.pending = .command cmd :: rest) (unreset : s.phase = .unreset) :
    step s = .fault .stateReadBeforeReset := by
  rw [step_command hp]
  exact giveCommand_unreset cmd unreset

/-- Before the first Reset a step does not depend on `S` and `ERR`: a command faults whatever they hold, and Reset
overwrites both. -/
theorem step_unreset_independent (unreset : s.phase = .unreset) (v : LfsrWord) (e : Bool) :
    step { s with S := v, ERR := e } = step s := by
  cases hp : s.pending with
  | nil => rw [step_endOfRun hp]; exact step_endOfRun rfl
  | cons l rest =>
    cases l with
    | reset => rw [step_reset hp]; exact step_reset rfl
    | command cmd => rw [step_unreset hp unreset]; exact step_unreset rfl unreset

/-- Settles O32: a command faults, as an instruction and as a word; Reset clears `ERR` and makes the engine ready. -/
theorem powerOnStateIsNeverRead : Obligations.PowerOnStateIsNeverRead :=
  fun _ unreset => ⟨fun i => exec_unreset i unreset, fun _ _ hp => step_unreset hp unreset,
    fun _ hp => ⟨_, step_reset hp, rfl, rfl⟩, step_unreset_independent unreset⟩

/-! ### Progress of an engine that has been reset -/

/-- A ready engine takes any letter: it stays ready, and answers a command word with one response and Reset with none
(R96). -/
theorem step_of_ready {l : Letter} (ready : s.phase = .ready) (hp : s.pending = l :: rest) :
    ∃ t new, step s = .next t ∧ t.phase = .ready ∧ t.responses = s.responses ++ new ∧
      new.length = ([l].filter Letter.isCommand).length := by
  cases l with
  | reset => exact ⟨_, [], step_reset hp, rfl, by simp, rfl⟩
  | command cmd =>
    cases e : s.ERR with
    | true => exact ⟨_, [_], step_failStop hp ready e, ready, rfl, rfl⟩
    | false =>
      cases d : decode cmd with
      | error reason => exact ⟨_, [_], step_illegal hp ready e (illegal_iff.2 ⟨reason, d⟩), ready, rfl, rfl⟩
      | ok i => exact ⟨_, [_], step_legal hp ready e d, ready, rfl, rfl⟩

/-- Settles O35: `step_of_ready`, and every step takes its letter from the host's list. -/
theorem engineIsAlwaysReady : Obligations.EngineIsAlwaysReady := by
  intro s l rest ready hp
  obtain ⟨t, -, h, ready', -⟩ := step_of_ready ready hp
  exact ⟨t, h, ready', step_pending hp h⟩

/-- A ready engine takes a whole list of letters: `step_of_ready` along the list. -/
theorem run_of_ready {letters : List Letter} (ready : s.phase = .ready) (hp : s.pending = letters) :
    ∃ t new, core.run letters.length s = .next t ∧ t.pending = [] ∧ t.phase = .ready ∧
      t.responses = s.responses ++ new ∧ new.length = (letters.filter Letter.isCommand).length := by
  induction letters generalizing s with
  | nil => exact ⟨s, [], rfl, hp, ready, by simp, rfl⟩
  | cons l rest ih =>
    obtain ⟨t, first, hstep, ready', responses, count⟩ := step_of_ready ready hp
    obtain ⟨u, later, hrun, done, ready'', responses', count'⟩ := ih ready' (step_pending hp hstep)
    refine ⟨u, first ++ later, (run_succ_next hstep).trans hrun, done, ready'', ?_, ?_⟩
    · rw [responses', responses, List.append_assoc]
    · rw [List.length_append, count, count', ← List.length_append, ← List.filter_append, List.singleton_append]

/-- Settles O40: after its letters the run has none left, and there is no step. -/
theorem everyRunEnds : Obligations.EveryRunEnds := by
  intro s ready
  obtain ⟨t, new, hrun, done, ready', responses, count⟩ := run_of_ready ready rfl
  exact ⟨t, new, hrun, done, ready', responses, count, step_endOfRun done⟩

end Sys2Proof.Machine
end

section
/-! PROOFS. The host's word interface (log entries 1 and 10): the word a numbered word stands for, where the host places
it, and the step that runs it. -/

namespace Sys2Proof

/-- A numbered word decodes to a command exactly when it stands for a command word that does. -/
theorem decodeTableWord_eq_some_iff {nbits w : Nat} {i : Instr} :
    decodeTableWord nbits w = some i ↔ ∃ cmd, tableWord nbits w = some cmd ∧ decode cmd = .ok i := by
  rw [decodeTableWord]
  cases tableWord nbits w with
  | none => simp
  | some cmd => cases d : decode cmd <;> simp [d]

namespace Machine

variable {s : State} {nbits w : Nat} {cmd : CommandWord}

/-- A number that stands for a command word is placed before what the host had to give. -/
theorem State.withFetchWord_of_tableWord (h : tableWord nbits w = some cmd) :
    s.withFetchWord nbits w = s.withPending (.command cmd :: s.pending) := by
  rw [State.withFetchWord, placeWord, h]

/-- Settles O36: the step takes the placed word from the list again, which leaves `s`, and gives it to the engine. The
two bounds are not needed: a number that decodes stands for a command word. -/
theorem placedWordRunsNext : Obligations.PlacedWordRunsNext := by
  intro s nbits w i _ _ h
  obtain ⟨cmd, word, d⟩ := decodeTableWord_eq_some_iff.1 h
  calc step (s.withFetchWord nbits w)
      = step (s.withPending (.command cmd :: s.pending)) := by rw [State.withFetchWord_of_tableWord word]
    _ = giveCommand exec cmd s := step_command rfl
    _ = exec i s := giveCommand_exec d

end Machine

end Sys2Proof
end
